-- ==== Sys2Proof/Word.lean ====
section
/-! DEFINITION. The words the transceiver moves: bytes, 16-bit registers, Logical Frames (30_encoding R53) and Wire
Buffers (R54), and how each reads as a byte array. -/

namespace Sys2Proof

/-- A byte: 8 bits (00_scope R7). -/
abbrev Byte := BitVec 8

/-- A 16-bit register or table entry (10_state R12, R14, R18, R27). -/
abbrev Word16 := BitVec 16

/-- Logical Frame: exactly 5 bytes `f[0] .. f[4]`, opaque to the transceiver (R53, R11). -/
structure Frame where
  f0 : Byte
  f1 : Byte
  f2 : Byte
  f3 : Byte
  f4 : Byte
  deriving DecidableEq, Repr, Inhabited

/-- Wire Buffer: exactly 8 bytes `w[0] .. w[7]` (R54, R25). -/
structure Block where
  w0 : Byte
  w1 : Byte
  w2 : Byte
  w3 : Byte
  w4 : Byte
  w5 : Byte
  w6 : Byte
  w7 : Byte
  deriving DecidableEq, Repr, Inhabited

/-- The byte array a frame is: `f[0]` first (R53). -/
def frameBytes (f : Frame) : List Byte := [f.f0, f.f1, f.f2, f.f3, f.f4]

/-- The byte array a wire block is: `w[0]` first (R54). -/
def blockBytes (w : Block) : List Byte := [w.w0, w.w1, w.w2, w.w3, w.w4, w.w5, w.w6, w.w7]

end Sys2Proof
end

