-- ==== Sys2Proof/Config.lean ====
section
/-! DEFINITION. What an implementation fixes (CFG, 00_scope R5, R6) and the free values of the model: the answers the
environment gives where no scripted answer is waiting (R9). -/

namespace Sys2Proof

/-- Transport variant, chosen once at configuration time (00_scope R6). -/
inductive Mode where
  /-- One bus; `SPIX` is available, `TPLX` is not. -/
  | spi
  /-- Two buses, a dedicated hardware chip-select on the transmit bus; `TPLX` is available. -/
  | tplHwcs
  /-- Two buses, the sequencer itself frames the transmit chip-select; `TPLX` is available. -/
  | tplSwcs
  deriving DecidableEq, Repr, Inhabited

/-- `CFG.SER`, serial-line details: an open record that no rule reads (R5, R8, 20_memory R39), each field a token. -/
structure SerialLine where
  /-- Which byte of the wire buffer is shifted first. -/
  byteOrder : Nat
  /-- Which bit of a byte is shifted first. -/
  bitOrder : Nat
  /-- How many of the 64 buffer bits are clocked for one frame. -/
  bitsClocked : Nat
  /-- Clock polarity. -/
  clockPolarity : Nat
  /-- Clock phase. -/
  clockPhase : Nat
  /-- Chip-select polarity: which of set and clear is "assert". -/
  csPolarity : Nat
  deriving DecidableEq, Repr, Inhabited

/-- FREE VALUE (R5, log entry 5): the real number that the configuration constant of the given token is. -/
opaque Config.freeReal : Nat → ℝ

/-- FREE VALUE (44_temp_table R103, log entry 5): the function on the reals that `numerics.exp` of the given token is. -/
opaque Config.freeExp : Nat → ℝ → ℝ

/-- A real constant of the configuration (R5), as plain data: a rational number, or a token for a real number of which
nothing is known but what `CfgLegal` asks (log entry 5). Its value stands in `Machine/Numerics.lean`. -/
inductive RealConst where
  | rat (q : Rat)
  | free (k : Nat)
  deriving DecidableEq, Repr

/-- A total function on the reals to serve as `numerics.exp` (44_temp_table R103), as plain data: the exponential itself,
or a token for a function of which nothing is known but what R103 allows. -/
inductive ExpFn where
  | natural
  | free (k : Nat)
  deriving DecidableEq, Repr

/-- How `numerics.exp` is given, and the entries `TBLD` writes with it (44_temp_table R103). -/
inductive Numerics where
  /-- By its points at the arguments that `TBLD` uses, (argument, value), all constants being rational: the entries are
  computed. -/
  | graph (points : List (Rat × Rat))
  /-- By a function on the reals, the entries being a parameter, as R103 and 92 D20 have it; a legal configuration's are
  the exact-real ones. -/
  | exact (exp : ExpFn) (entries : List Word16)
  deriving DecidableEq, Repr

/-- `CFG`: the record of constants fixed at build time (00_scope R5). No operation writes a field of it. What a legal
configuration is stands in `Machine/Numerics.lean`. -/
structure Cfg where
  /-- `MODE` (R6). -/
  mode : Mode
  /-- `COMM_TIMEOUT_MS`, at least 1. -/
  commTimeoutMs : Nat
  /-- `CORE_CLK_HZ`, at least 1000. -/
  coreClkHz : Nat
  /-- `SETTLE_US`, at least 1; only `TPL_SWCS` uses it. -/
  settleUs : Nat
  /-- `N_DEV`, at least 1; no rule reads it. -/
  nDev : Nat
  /-- `MAX_FRAMES`, 1 to 65535: the largest legal `NFR`. -/
  maxFrames : Nat
  /-- `SPI_CS_SEL`, an opaque token that no rule reads (42_spi_engine R81). -/
  spiCsSel : Nat
  /-- `FRAME_ENDIAN`, an opaque token that no rule reads (20_memory R38). -/
  frameEndian : Nat
  /-- `T_MIN` in degrees C. -/
  tMin : Int
  /-- `T_MAX` in degrees C. -/
  tMax : Int
  /-- `BETA`, a positive real. -/
  beta : RealConst
  /-- `R_REF` in ohms, a positive real. -/
  rRef : RealConst
  /-- `T_REF` in degrees C, a real above -273.15. -/
  tRef : RealConst
  /-- `R_PU` in ohms, a positive real. -/
  rPu : RealConst
  /-- `CODE_SCALE`: raw codes per unit divider fraction, a real above 0 and at most 65535. -/
  codeScale : RealConst
  /-- `SER` (R39). -/
  ser : SerialLine
  /-- `numerics.exp` (44_temp_table R103). -/
  numerics : Numerics
  deriving DecidableEq, Repr

/-- The oracle's answer to `S_ARM` (00_scope R8). -/
inductive ArmAns where
  | armOk
  | armFail
  deriving DecidableEq, Repr, Inhabited

/-- The oracle's answer to `M_XFER` (00_scope R8): `M_OK(r)`, where `r` is used only by a full-duplex exchange. -/
inductive XferAns where
  | ok (r : Block)
  | timeout
  | fail
  deriving DecidableEq, Repr, Inhabited

/-- The oracle's answer to `S_POLL` (00_scope R8). -/
inductive PollAns where
  | busy
  | idle
  deriving DecidableEq, Repr, Inhabited

/-- FREE VALUE (R9, log entry 3): the answer to the `S_ARM` asked at the given count of answers. -/
opaque Config.freeArm : Nat → ArmAns

/-- FREE VALUE (R9, log entry 3): the answer to the `M_XFER` asked at the given count of answers. -/
opaque Config.freeXfer : Nat → XferAns

/-- FREE VALUE (R9, log entry 3): the answer to the `S_POLL` asked at the given count of answers. -/
opaque Config.freePoll : Nat → PollAns

/-- FREE VALUE (R9, log entry 3): one received wire block of `S_DATA(n)`, at the given count of answers. -/
opaque Config.freeBlock : Nat → Block

end Sys2Proof
end

