-- ==== Sys2Proof/Syntax.lean ====
section
/-! DEFINITION. The operation set OPSET-1: the six operations of 00_scope R3, one constructor per row of the opcode
table. A command carries no operand: operands are in registers (30_encoding R59, R61). -/

namespace Sys2Proof

/-- The six operations (00_scope R3, 30_encoding R60). There is no other (R65). -/
inductive Instr where
  /-- `ENC`: frame encode (41_frame_codec R71). -/
  | enc
  /-- `DEC`: frame decode (41_frame_codec R72). -/
  | dec
  /-- `SPIX`: SPI-mode transfer (42_spi_engine R77). -/
  | spix
  /-- `TPLX`: TPL-mode transfer (43_tpl_engine R84). -/
  | tplx
  /-- `TBLD`: build the Temperature Table (44_temp_table R100). -/
  | tbld
  /-- `TINV`: invert a raw code (45_temp_inverter R108). -/
  | tinv
  deriving DecidableEq, Repr, Inhabited

end Sys2Proof
end

