-- ==== Sys2Proof/WellFormed.lean ====
section
/-! DEFINITION. Well-formed command bytes (30_encoding R59, R65) and the operations a configuration has (00_scope R6,
30_encoding R66). -/

namespace Sys2Proof

/-- A command byte is well formed when its reserved bits 7:3 are zero and its code, bits 2:0, is 1 to 6 (R59, R65). -/
def cmdWellFormed (c : Byte) : Bool :=
  c.extractLsb' 3 5 == 0#5 && c.extractLsb' 0 3 != 0#3 && c.extractLsb' 0 3 != 7#3

/-- The configuration has the operation: `SPIX` only when MODE = SPI, `TPLX` only in the TPL variants, the others in
every MODE (R6, R66). -/
def Instr.wellFormed (m : Mode) (i : Instr) : Bool :=
  match i with
  | .spix => m == .spi
  | .tplx => m == .tplHwcs || m == .tplSwcs
  | .enc => true
  | .dec => true
  | .tbld => true
  | .tinv => true

end Sys2Proof
end

