-- ==== Sys2Proof/Decode.lean ====
section
/-! DEFINITION. Reading a command (30_encoding R59, R60, R65), total on any bytes and rejecting by name, and the encoder. -/

namespace Sys2Proof

/-- Why bytes are no command. -/
inductive DecodeError where
  /-- There is no byte. -/
  | noByte
  /-- The reserved bits 7:3 are not zero: the values 0x08 to 0xFF (R65). -/
  | reservedBits
  /-- Bits 7:3 are zero and the code is 0 or 7: the values 0x00 and 0x07 (R65). -/
  | reservedCode
  deriving DecidableEq, Repr

/-- The operation a `CMD` value encodes: first `c[7:3] = 0`, then the selection on `c[2:0]` (R60). -/
def decodeCmd (c : Byte) : Except DecodeError Instr :=
  if c.extractLsb' 3 5 ≠ 0#5 then .error .reservedBits
  else if c.extractLsb' 0 3 = 1#3 then .ok .enc
  else if c.extractLsb' 0 3 = 2#3 then .ok .dec
  else if c.extractLsb' 0 3 = 3#3 then .ok .spix
  else if c.extractLsb' 0 3 = 4#3 then .ok .tplx
  else if c.extractLsb' 0 3 = 5#3 then .ok .tbld
  else if c.extractLsb' 0 3 = 6#3 then .ok .tinv
  else .error .reservedCode

/-- A command is one byte (R59, R68): the operation and the bytes after it. -/
def decode : List Byte → Except DecodeError (Instr × List Byte)
  | [] => .error .noByte
  | c :: rest =>
    match decodeCmd c with
    | .ok i => .ok (i, rest)
    | .error e => .error e

/-- The `CMD` value of an operation (R60). -/
def encodeCmd (i : Instr) : Byte :=
  match i with
  | .enc => 0x01#8
  | .dec => 0x02#8
  | .spix => 0x03#8
  | .tplx => 0x04#8
  | .tbld => 0x05#8
  | .tinv => 0x06#8

/-- The words of an operation: its one command byte (R59). -/
def encode (i : Instr) : List Byte := [encodeCmd i]

/-- The byte written to `CMD` when a command's bits, numbered as the opcode table numbers them, are `w`. -/
def tableByte (nbits w : Nat) : Byte := BitVec.ofNat 8 (w % 2 ^ nbits)

/-- The operation the decoder reads from a command of `nbits` bits `w`: a command has one length, 8 bits (R59), and
longer bit strings are no command. -/
def decodeTableWord (nbits w : Nat) : Option Instr :=
  if 8 < nbits then none
  else
    match decode [tableByte nbits w] with
    | .ok (i, []) => some i
    | .ok (_, _ :: _) => none
    | .error _ => none

end Sys2Proof
end

