-- ==== Sys2Proof/Machine/Numerics.lean ====
section
/-! DEFINITION. The numbers derived from CFG (00_scope R5), the beta model of the table builder (44_temp_table R100 to
R103), once for every ordered field, the entries TBLD writes, and what a legal configuration is. -/

namespace Sys2Proof

/-! ### Real constants as plain data -/

/-- The constant as a rational number; the value 0 of a token is not used, since a graph is legal with rational constants
only (`isRat`). -/
def RealConst.toRat (x : RealConst) : Rat :=
  match x with
  | .rat q => q
  | .free _ => 0

/-- The constant is a rational number. -/
def RealConst.isRat (x : RealConst) : Bool :=
  match x with
  | .rat _ => true
  | .free _ => false

/-- A constraint checked of a constant that is a rational number; that of a token is a hypothesis on the configuration
(93 U9, `ThermalConstraints`). -/
def RealConst.check (x : RealConst) (p : Rat → Bool) : Bool :=
  match x with
  | .rat q => p q
  | .free _ => true

/-- The real number a constant is. -/
noncomputable def RealConst.value (x : RealConst) : ℝ :=
  match x with
  | .rat q => (q : ℝ)
  | .free k => Config.freeReal k

/-- The function on the reals that `numerics.exp` is. -/
noncomputable def ExpFn.fn (f : ExpFn) : ℝ → ℝ :=
  match f with
  | .natural => Real.exp
  | .free k => Config.freeExp k

end Sys2Proof

namespace Sys2Proof.Machine

/-- `BUDGET0 = COMM_TIMEOUT_MS * (CORE_CLK_HZ div 1000)` (R5, R153). -/
def budget0 (c : Cfg) : Nat := c.commTimeoutMs * (c.coreClkHz / 1000)

/-- `NT = T_MAX - T_MIN + 1` (R5, R104). -/
def nt (c : Cfg) : Nat := (c.tMax - c.tMin + 1).toNat

/-- The temperature of table index `i`, in degrees C (R27, R104). -/
def tempAt (c : Cfg) (i : Nat) : Int := c.tMin + i

/-! ### The beta model (44_temp_table R100 to R102) -/

/-- `KELVIN0 = 273.15` (R101; PRESUMED, log entry 14: the spec marks it as general knowledge, 92 D20). -/
def kelvin0 {α : Type} [Field α] : α := 27315 / 100

/-- The argument of the exponential for temperature `t`: `BETA * (1/tk - 1/refk)` (R100, R101). -/
def betaArg {α : Type} [Field α] (beta tRef : α) (t : Int) : α :=
  beta * (1 / ((t : α) + kelvin0) - 1 / (tRef + kelvin0))

/-- The integer nearest to `x`, a tie going away from zero (R7, R102). -/
def roundHalfAway {α : Type} [Field α] [LinearOrder α] [FloorRing α] (x : α) : Int :=
  if 0 ≤ x then ⌊x + 1 / 2⌋ else -⌊-x + 1 / 2⌋

/-- The entry for the value `e` of the exponential: resistance `R_REF * e`, divider fraction, quantisation
(R100 to R102). -/
def betaEntry {α : Type} [Field α] [LinearOrder α] [FloorRing α] (rRef rPu codeScale e : α) : Int :=
  roundHalfAway (rRef * e / (rRef * e + rPu) * codeScale)

/-! ### The entries TBLD writes (44_temp_table R100, R103) -/

/-- The entry of table index `i`, as the 16-bit code written to `TBL` (R27, R100): computed from a graph, or the
parameter of R103. It never truncates (R107). -/
def entryCode (c : Cfg) (i : Nat) : Word16 :=
  match c.numerics with
  | .graph points =>
    BitVec.ofInt 16 (betaEntry c.rRef.toRat c.rPu.toRat c.codeScale.toRat ((points[i]?).map Prod.snd |>.getD 1))
  | .exact _ entries => (entries[i]?).getD 0#16

/-! ### What TBLD checks (93 U9) -/

/-- Each member is strictly larger than the next. -/
def strictlyFalling : List Rat → Bool
  | [] => true
  | [_] => true
  | a :: b :: rest => decide (b < a) && strictlyFalling (b :: rest)

/-- Each member is at least the next. -/
def neverRising : List Nat → Bool
  | [] => true
  | [_] => true
  | a :: b :: rest => decide (b ≤ a) && neverRising (b :: rest)

/-- What the model assumes of `numerics.exp` at one argument: it is positive, `exp 0 = 1`, and it is strictly
increasing against that point (R103). -/
def expPointLegal (p : Rat × Rat) : Bool :=
  decide (0 < p.2) && decide (p.1 < 0 → p.2 < 1) && decide (p.1 = 0 → p.2 = 1) && decide (0 < p.1 → 1 < p.2)

/-- A graph agrees with R103: the constants are rational, its points are exactly the arguments of the table's
temperatures, coldest first, the values fall strictly, and each point is legal. -/
def graphLegal (c : Cfg) (points : List (Rat × Rat)) : Bool :=
  c.beta.isRat && c.rRef.isRat && c.tRef.isRat && c.rPu.isRat && c.codeScale.isRat
    && points.map Prod.fst == (List.range (nt c)).map (fun i => betaArg c.beta.toRat c.tRef.toRat (tempAt c i))
    && strictlyFalling (points.map Prod.snd)
    && points.all expPointLegal

/-- What can be checked of `numerics.exp` and its entries: a graph whole; of a parameter table its length and order
(R104, R105; its width is that of its type, R107). -/
def numericsLegal (c : Cfg) : Bool :=
  match c.numerics with
  | .graph points => graphLegal c points
  | .exact _ entries => entries.length == nt c && neverRising (entries.map BitVec.toNat)

/-- The constraints on the temperature model's parameters (R5, R101, R107), as far as plain data shows them; `TBLD`
outside them is refused (93 U9). -/
def thermalLegal (c : Cfg) : Bool :=
  decide (c.tMin < c.tMax) && decide (-273 ≤ c.tMin) && decide (c.tMax ≤ 3274)
    && c.beta.check (fun q => decide (0 < q)) && c.rRef.check (fun q => decide (0 < q))
    && c.tRef.check (fun q => decide (0 < q + kelvin0)) && c.rPu.check (fun q => decide (0 < q))
    && c.codeScale.check (fun q => decide (0 < q) && decide (q ≤ 65535)) && numericsLegal c

/-- The constraints on the transport's parameters (R5). -/
def transportLegal (c : Cfg) : Bool :=
  decide (1 ≤ c.commTimeoutMs) && decide (1000 ≤ c.coreClkHz) && decide (1 ≤ c.settleUs) && decide (1 ≤ c.nDev)
    && decide (1 ≤ c.maxFrames) && decide (c.maxFrames ≤ 65535)

/-! ### Legal configurations, over exact reals (00_scope R5, 44_temp_table R103) -/

/-- The argument of the exponential at table index `i` (R100, R101). -/
noncomputable def expArg (c : Cfg) (i : Nat) : ℝ := betaArg c.beta.value c.tRef.value (tempAt c i)

/-- The value of `numerics.exp` at table index `i`. -/
noncomputable def expAt (c : Cfg) (i : Nat) : ℝ :=
  match c.numerics with
  | .graph points => (((points[i]?).map Prod.snd |>.getD 1 : Rat) : ℝ)
  | .exact f _ => f.fn (expArg c i)

/-- The entry of table index `i`, over exact reals (R100 to R102). -/
noncomputable def exactEntry (c : Cfg) (i : Nat) : Int :=
  betaEntry c.rRef.value c.rPu.value c.codeScale.value (expAt c i)

/-- `numerics.exp` has the value `e` at `x` (R103): of a graph, where the two are one of its points. -/
def ExpValue (c : Cfg) (x e : ℝ) : Prop :=
  match c.numerics with
  | .graph points => ∃ p ∈ points, (p.1 : ℝ) = x ∧ (p.2 : ℝ) = e
  | .exact f _ => f.fn x = e

/-- All that may be assumed of `numerics.exp` (R103): `exp 0 = 1`, it is strictly increasing, its values are positive;
of a graph, the same on its points. -/
def ExpConstraints (c : Cfg) : Prop :=
  match c.numerics with
  | .graph points => graphLegal c points = true
  | .exact f _ => f.fn 0 = 1 ∧ StrictMono f.fn ∧ ∀ x, 0 < f.fn x

/-- The constraints of R5 on the temperature model's parameters. -/
structure ThermalConstraints (c : Cfg) : Prop where
  order : c.tMin < c.tMax
  low : -273 ≤ c.tMin
  high : c.tMax ≤ 3274
  beta : 0 < c.beta.value
  rRef : 0 < c.rRef.value
  tRef : 0 < c.tRef.value + kelvin0
  rPu : 0 < c.rPu.value
  scale : 0 < c.codeScale.value
  scaleMax : c.codeScale.value ≤ 65535
  exp : ExpConstraints c

/-- The parameter table of R103 is the one that the exact reals give; a graph's entries are computed. -/
def TableExact (c : Cfg) : Prop :=
  match c.numerics with
  | .graph _ => True
  | .exact _ entries => entries = (List.range (nt c)).map (fun i => BitVec.ofInt 16 (exactEntry c i))

/-- A legal configuration: every constraint of the table of R5. -/
structure CfgLegal (c : Cfg) : Prop where
  thermal : ThermalConstraints c
  table : TableExact c
  transport : transportLegal c = true

end Sys2Proof.Machine
end

