-- ==== Sys2Proof/Machine/Reference.lean ====
section
/-! DEFINITION. The reference binding CFG_REF of 92_eei_decisions D22: evidence for test vectors, and the configuration
of `State.reset` (DESIGN CHOICE, log entry 2). No rule depends on it. -/

namespace Sys2Proof.Machine

/-- `exp` at the arguments of -40 to 120 degrees C, in units of 10^-9, rounded (computed outside the model). -/
def referenceExp : List Nat :=
  [38350386221, 35706246837, 33264618156, 31008546435, 28922611594, 26992778602, 25206264196, 23551417234] ++
  [22017611224, 20595147711, 19275169363, 18049581724, 16910982717, 15852599088, 14868229072, 13952190616] ++
  [13099274618, 12304702635, 11564088640, 10873404384, 10228948034, 9627315734, 9065375813, 8540245380] ++
  [8049269056, 7589999662, 7160180643, 6757730091, 6380726184, 6027393933, 5696093096, 5385307159] ++
  [5093633277, 4819773088, 4562524327, 4320773154, 4093487142, 3879708855, 3678549971, 3489185898] ++
  [3310850839, 3142833264, 2984471760, 2835151216, 2694299320, 2561383344, 2435907183, 2317408635] ++
  [2205456894, 2099650243, 1999613933, 1904998221, 1815476565, 1730743961, 1650515399, 1574524452] ++
  [1502521956, 1434274804, 1369564821, 1308187731, 1249952194, 1194678922, 1142199852, 1092357385] ++
  [1045003681, 1000000000, 957216099, 916529663, 877825783, 840996468, 805940196, 772561488] ++
  [740770521, 710482763, 681618634, 654103192, 627865836, 602840035, 578963075, 556175814] ++
  [534422468, 513650400, 493809927, 474854138, 456738730, 439421847, 422863931, 407027589] ++
  [391877462, 377380103, 363503865, 350218798, 337496546, 325310257, 313634494, 302445156] ++
  [291719401, 281435570, 271573128, 262112594, 253035482, 244324251, 235962246, 227933653] ++
  [220223451, 212817369, 205701844, 198863985, 192291534, 185972834, 179896796, 174052868] ++
  [168431007, 163021654, 157815705, 152804489, 147979749, 143333612, 138858577, 134547494] ++
  [130393543, 126390221, 122531324, 118810931, 115223393, 111763315, 108425550, 105205177] ++
  [102097499, 99098028, 96202475, 93406738, 90706900, 88099211, 85580086, 83146097] ++
  [80793962, 78520541, 76322829, 74197947, 72143141, 70155771, 68233309, 66373333] ++
  [64573521, 62831648, 61145582, 59513277, 57932772, 56402185, 54919712, 53483620] ++
  [52092248, 50743999, 49437343, 48170807, 46942979, 45752503, 44598075, 43478442] ++
  [42392400]

/-- CFG_REF without its exponential. MODE is not part of D22: `TPL_SWCS`, the variant of program P2. -/
def referenceBase : Cfg :=
  { mode := .tplSwcs, commTimeoutMs := 10, coreClkHz := 48000000, settleUs := 3, nDev := 2, maxFrames := 3,
    spiCsSel := 0, frameEndian := 0, tMin := -40, tMax := 120, beta := .rat 3900, rRef := .rat 10000, tRef := .rat 25,
    rPu := .rat 6800, codeScale := .rat 32768,
    ser := { byteOrder := 0, bitOrder := 0, bitsClocked := 0, clockPolarity := 0, clockPhase := 0, csPolarity := 0 },
    numerics := .graph [] }

/-- CFG_REF (92 D22). -/
def referenceCfg : Cfg :=
  { referenceBase with
    numerics := .graph (List.zipWith (fun i m => (betaArg 3900 25 (tempAt referenceBase i), (m : Rat) / 1000000000))
      (List.range 161) referenceExp) }

end Sys2Proof.Machine
end

