-- ==== Sys2Proof/Machine/State.lean ====
section
/-! DEFINITION. Everything the spec gives the machine (10_state R10 to R33), the model's own fields beside it (the
configuration, the environment, the host), the reasons a step can stop, and the state after reset (R32). -/

namespace Sys2Proof.Machine

/-- A space of cells in one canonical form: the cells that hold a value, addresses strictly rising. A cell that is not
listed HOLDS NO VALUE (10_state R33). For bytes an element is a `Host.Cell`. -/
abbrev Memory (α : Type) := List (Nat × α)

/-- The canonical form of a space: addresses strictly rise. (What an unlisted cell reads as is "no value", which no
listed cell holds.) -/
abbrev Memory.wf {α : Type} (m : Memory α) : Prop := m.Pairwise (fun p q => p.1 < q.1)

/-- Sequencer phase, the stand-in for a program counter (R22). -/
inductive Phase where
  /-- No operation in progress. -/
  | idle
  | spiXfer
  | tplArm
  | tplTx
  | tplPoll
  | tplTimeout
  | tplDecode
  | tblFill
  | invRange
  | invBisect
  | invInterp
  deriving DecidableEq, Repr

/-- Level of the transmit chip-select line (R28). -/
inductive Level where
  | asserted
  | deasserted
  deriving DecidableEq, Repr

/-- Result code of an operation, field `ERR` of `STATUS` (R20, R62, R118). -/
inductive Code where
  | ok
  | timeout
  | busBusy
  deriving DecidableEq, Repr

/-- What an `M_XFER` asks for: the bytes received in the same exchange, or none (00_scope R8). -/
inductive Duplex where
  | full
  | txOnly
  deriving DecidableEq, Repr

/-- The answer of an `M_XFER` as the trace shows it: `r` is present only for `FULL` (00_scope R8). -/
inductive XferSeen where
  | ok (r : Option Block)
  | timeout
  | fail
  deriving DecidableEq, Repr

/-- One entry of `TRACE` (R29): an event primitive and the oracle's answer. `S_DATA` is no event (00_scope R8). -/
inductive Event where
  | sArm (n : Nat) (a : ArmAns)
  | mXfer (w : Block) (dup : Duplex) (a : XferSeen)
  | sPoll (a : PollAns)
  | sAbort
  | csAssert
  | csDeassert
  | delayUs (n : Nat)
  deriving DecidableEq, Repr

/-- The environment's answers (00_scope R9, log entry 3): scripted answers, taken first and in order, and the count of
answers given so far, at which a free value of Config is taken when no scripted one is waiting. `data` holds the wire
blocks of coming `S_DATA(n)`. -/
structure Env where
  arm : List ArmAns
  xfer : List XferAns
  poll : List PollAns
  data : List Block
  tick : Nat
  deriving DecidableEq, Repr

/-- A value the host writes to a register or reads from it (R11 to R20). -/
inductive RegVal where
  /-- `TXF`, `FOUT`, `RXF[k]`. -/
  | frame (f : Frame)
  /-- `WIN`, `WOUT`. -/
  | block (w : Block)
  /-- `NFR`, `RAW`, `RXN`, `TEMP`. -/
  | word (v : Word16)
  /-- `CMD`, `STATUS`. -/
  | byte (c : Byte)
  deriving DecidableEq, Repr

/-- What the host does next (R30, R31, R135; 95_test_vectors part 3). -/
inductive HostAccess where
  /-- Write register number `n`. A write of `CMD` (number 0) issues an operation, shown whole: the host looks again only
  when it has completed. -/
  | write (n : Nat) (v : RegVal)
  /-- Write `c` to `CMD`, the operation then shown phase by phase (log entry 4). -/
  | post (c : Byte)
  /-- Read register number `n`. -/
  | read (n : Nat)
  /-- Read `STATUS` until `DONE = 1`. -/
  | wait
  /-- Do nothing for one step. -/
  | pass
  /-- The external reset (70_reset_and_hazards R138). -/
  | reset
  deriving DecidableEq, Repr

/-- The three address spaces (20_memory R34). -/
inductive Space where
  | txw
  | rxw
  | tbl
  deriving DecidableEq, Repr

/-- Why the machine stops with a fault. -/
inductive Fault where
  /-- The sequencer would reach an address that its space does not have (R34). Raised by `seqStep`, only in states that
  no run from reset reaches (an operation in progress whose count or index is out of range). SAFE: the machine stops
  where the spec gives no address. -/
  | outsideSpace (sp : Space) (addr : Nat)
  deriving DecidableEq, Repr

/-- Why a step has no meaning (60_exceptions R126, R127). Every one but `notModelled` is a refusal of the spec itself.
SAFE, all of them: refusing errs toward unprovable (R126). -/
inductive Refusal where
  /-- Raised by an arm of `exec` whose instruction has no meaning yet. None is left. -/
  | notModelled (mnemonic : String)
  /-- RF1: a host access other than a read of STATUS, or a CMD write, while an operation is in progress. Raised by every
  meaning, by host writes and by host reads. -/
  | operationInProgress
  /-- RF2: CMD written with a reserved value. Raised by a CMD write. -/
  | reservedCommand (c : Byte)
  /-- RF3: the configuration does not have the operation. Raised by SPIX and TPLX. -/
  | wrongMode
  /-- RF4: NFR = 0 or NFR > MAX_FRAMES. Raised by TPLX. -/
  | badFrameCount (n : Nat)
  /-- RF5: TBLD with TBL_VALID = 1. Raised by TBLD. -/
  | tableAlreadyBuilt
  /-- RF6: TINV with TBL_VALID = 0. Raised by TINV. -/
  | tableNotBuilt
  /-- RF7 (10_state R33, 93 U7: `refuse`): an operand register (its number) holds no value. Raised by ENC, DEC, SPIX,
  TPLX, TINV. -/
  | noOperand (n : Nat)
  /-- RF8: no such access exists: a write to a read-only register, a read of CMD, a reserved register number, a value
  of another type than the register's. Raised by host accesses. -/
  | badAccess (n : Nat)
  /-- RF9 (10_state R33, 93 U6, U7: `refuse`): a host read of a register (its number) that holds no value. Raised by
  host reads. -/
  | noValue (n : Nat)
  /-- 93 U8: TINV on a table that is not complete and non-increasing, its precondition in R108. Raised by TINV. -/
  | tableUnfit
  /-- 93 U9: TBLD with parameters outside the constraints of R5. Raised by TBLD. -/
  | badParameters
  /-- R140: reset while an operation is in progress. Raised by the reset input. -/
  | resetInProgress
  deriving DecidableEq, Repr

/-- The state of the transceiver (10_state R10), and beside it the configuration and the model's own `env`, `host`,
`seen`. A register is an `Option` where the spec gives "holds no value" a meaning (R33, RF7, RF9): `none` is that. -/
structure State where
  /-- CFG (00_scope R5): no operation writes it (log entry 1). -/
  cfg : Cfg
  /-- TXF (R11). -/
  txf : Option Frame
  /-- NFR (R12). -/
  nfr : Option Word16
  /-- WIN (R13). -/
  win : Option Block
  /-- RAW (R14). -/
  raw : Option Word16
  /-- WOUT (R15). -/
  wout : Option Block
  /-- FOUT (R16). -/
  fout : Option Frame
  /-- RXF (R17): element `k` at address `k`. -/
  rxf : Memory Frame
  /-- RXN (R17). -/
  rxn : Word16
  /-- TEMP (R18), two's complement. -/
  temp : Option Word16
  /-- STATUS (R20). -/
  status : Byte
  /-- PH (R22). -/
  ph : Phase
  /-- BUD (R23). -/
  bud : Nat
  /-- SL (R24). -/
  sl : Nat
  /-- SR (R24). -/
  sr : Nat
  /-- SM (R24). -/
  sm : Nat
  /-- TXW (R25). -/
  txw : Memory Byte
  /-- RXW (R26). -/
  rxw : Memory Byte
  /-- TBL (R27). -/
  tbl : Memory Word16
  /-- S_ARMED (R28). -/
  sArmed : Bool
  /-- CS_TX (R28). -/
  csTx : Level
  /-- TRACE, oldest first (R29). -/
  trace : List Event
  /-- The environment (the model's own, log entry 3). -/
  env : Env
  /-- The host's next accesses (the model's own, log entry 4). -/
  host : List HostAccess
  /-- What the host has read, register number and value, oldest first (the model's own ghost, log entry 4). -/
  seen : List (Nat × RegVal)
  deriving DecidableEq, Repr

/-- No scripted answer, no answer given yet. -/
def Env.fresh : Env := { arm := [], xfer := [], poll := [], data := [], tick := 0 }

/-- The transceiver of configuration `c` right after reset: every item at the value of R32. `sl`, `sr`, `sm` hold no
value there; DESIGN CHOICE 0 (log entry 6). -/
def State.resetWith (c : Cfg) : State :=
  { cfg := c, txf := none, nfr := none, win := none, raw := none, wout := none, fout := none, rxf := [], rxn := 0#16,
    temp := none, status := 0x00#8, ph := .idle, bud := 0, sl := 0, sr := 0, sm := 0, txw := [], rxw := [], tbl := [],
    sArmed := false, csTx := .deasserted, trace := [], env := Env.fresh, host := [], seen := [] }

/-- The machine right after reset (R32, R139), in the reference binding (DESIGN CHOICE, log entry 2); what holds after
reset in every configuration is said of `State.resetWith`. -/
def State.reset : State := State.resetWith referenceCfg

end Sys2Proof.Machine
end

