-- ==== Sys2Proof/Machine/Flags.lean ====
section
/-! DEFINITION. The fields of STATUS (10_state R20): their readings and every way an operation writes them. -/

namespace Sys2Proof.Machine

/-- BUSY, bit 0 (R20). -/
def busyOf (w : Byte) : Bool := w.getLsbD 0
/-- DONE, bit 1 (R20). -/
def doneOf (w : Byte) : Bool := w.getLsbD 1
/-- ERR, bits 3:2 (R20). -/
def errOf (w : Byte) : BitVec 2 := w.extractLsb' 2 2
/-- INRANGE, bit 4 (R20). -/
def inRangeOf (w : Byte) : Bool := w.getLsbD 4
/-- TBL_VALID, bit 5 (R20). -/
def tblValidOf (w : Byte) : Bool := w.getLsbD 5
/-- The reserved bits 7:6 (R20). -/
def reservedOf (w : Byte) : BitVec 2 := w.extractLsb' 6 2

/-- The bits of `mask` set to `b`, the others kept. -/
def putBits (mask : Byte) (b : Bool) (w : Byte) : Byte := if b then w ||| mask else w &&& ~~~mask

/-- BUSY <- `b`. -/
def putBusy (b : Bool) (w : Byte) : Byte := putBits 0x01#8 b w
/-- DONE <- `b`. -/
def putDone (b : Bool) (w : Byte) : Byte := putBits 0x02#8 b w
/-- INRANGE <- `b`. -/
def putInRange (b : Bool) (w : Byte) : Byte := putBits 0x10#8 b w
/-- TBL_VALID <- `b`. -/
def putTblValid (b : Bool) (w : Byte) : Byte := putBits 0x20#8 b w

/-- The codes of ERR: OK 0, TIMEOUT 1, BUSBUSY 2; 3 is never produced (R20, R62). -/
def codeBits (e : Code) : BitVec 2 :=
  match e with
  | .ok => 0#2
  | .timeout => 1#2
  | .busBusy => 2#2

/-- ERR <- `e`. -/
def putErr (e : Code) (w : Byte) : Byte := (w &&& 0xF3#8) ||| ((codeBits e).zeroExtend 8 <<< 2)

/-- STATUS after the issue of an operation: BUSY <- 1, DONE <- 0, ERR <- 0 (R20, R77, R84, R100, R108). -/
def issuedStatus (w : Byte) : Byte := putErr .ok (putDone false (putBusy true w))

/-- STATUS after completion: ERR <- code, BUSY <- 0, DONE <- 1 (60_exceptions R121). -/
def completedStatus (e : Code) (w : Byte) : Byte := putDone true (putBusy false (putErr e w))

end Sys2Proof.Machine
end

