-- ==== Sys2Proof/Machine/Ops.lean ====
section
/-! DEFINITION. The named operations: on spaces, the event primitives (00_scope R8), the writes of RXN, issue, and the
one way an operation ends, `complete` and `raise` (60_exceptions R121). -/

namespace Sys2Proof.Machine

/-- What a meaning answers. -/
abbrev Answer := Host.Outcome State Fault Refusal

/-! ### Spaces (20_memory R34, 10_state R33) -/

/-- The value of a cell; `none` is "holds no value" (R33). -/
def Memory.read {α : Type} : Memory α → Nat → Option α
  | [], _ => none
  | (b, v) :: rest, a => if b = a then some v else Memory.read rest a

/-- Write one cell, keeping the canonical form. -/
def Memory.write {α : Type} : Memory α → Nat → α → Memory α
  | [], a, v => [(a, v)]
  | (b, w) :: rest, a, v =>
    if a < b then (a, v) :: (b, w) :: rest
    else if a = b then (a, v) :: rest
    else (b, w) :: Memory.write rest a v

/-- Make one cell hold no value. -/
def Memory.erase {α : Type} : Memory α → Nat → Memory α
  | [], _ => []
  | (b, w) :: rest, a => if b = a then rest else (b, w) :: Memory.erase rest a

/-- Write one cell, or make it hold no value. -/
def Memory.put {α : Type} (m : Memory α) (a : Nat) (v : Option α) : Memory α :=
  match v with
  | some x => Memory.write m a x
  | none => Memory.erase m a

/-- Write consecutive cells from `a` on, in increasing order (MemWrite, 00_scope R8). -/
def Memory.writeList {α : Type} : Memory α → Nat → List α → Memory α
  | m, _, [] => m
  | m, a, v :: rest => Memory.writeList (Memory.write m a v) (a + 1) rest

/-- Keep only the cells below `n`; the others hold no value. -/
def Memory.below {α : Type} (m : Memory α) (n : Nat) : Memory α := m.filter (fun p => decide (p.1 < n))

/-- Write one wire block at `a` (MemWrite of 8 bytes, R8, R40). -/
def Memory.writeBlock (m : Memory Byte) (a : Nat) (w : Block) : Memory Byte := Memory.writeList m a (blockBytes w)

/-- Read one wire block at `a` (MemRead of 8 bytes, R8, R40); none where a byte of it holds no value. -/
def Memory.readBlock (m : Memory Byte) (a : Nat) : Option Block :=
  match Memory.read m a, Memory.read m (a + 1), Memory.read m (a + 2), Memory.read m (a + 3), Memory.read m (a + 4),
    Memory.read m (a + 5), Memory.read m (a + 6), Memory.read m (a + 7) with
  | some b0, some b1, some b2, some b3, some b4, some b5, some b6, some b7 => some ⟨b0, b1, b2, b3, b4, b5, b6, b7⟩
  | _, _, _, _, _, _, _, _ => none

/-! ### The environment's answers (00_scope R9, log entry 3) -/

/-- The `k`-th answer from now on, counting from 0, if it is asked of `S_ARM`. -/
def Env.armAt (e : Env) (k : Nat) : ArmAns := (e.arm[k]?).getD (Config.freeArm (e.tick + k))

/-- The answer to the next `M_XFER`. -/
def Env.nextXfer (e : Env) : XferAns := (e.xfer[0]?).getD (Config.freeXfer e.tick)

/-- The answer to the `k`-th `S_POLL` from now on, counting from 0, when nothing but polls is asked. -/
def Env.pollAt (e : Env) (k : Nat) : PollAns := (e.poll[k]?).getD (Config.freePoll (e.tick + k))

/-- The `k`-th wire block received from now on, counting from 0, when nothing else is asked. -/
def Env.blockAt (e : Env) (k : Nat) : Block := (e.data[k]?).getD (Config.freeBlock (e.tick + k))

/-- An `S_ARM` has been answered. -/
def Env.afterArm (e : Env) : Env := { e with arm := e.arm.drop 1, tick := e.tick + 1 }

/-- An `M_XFER` has been answered. -/
def Env.afterXfer (e : Env) : Env := { e with xfer := e.xfer.drop 1, tick := e.tick + 1 }

/-- `k` polls have been answered. -/
def Env.afterPolls (e : Env) (k : Nat) : Env := { e with poll := e.poll.drop k, tick := e.tick + k }

/-- `S_DATA` of `n` wire blocks has been taken. -/
def Env.afterData (e : Env) (n : Nat) : Env := { e with data := e.data.drop n, tick := e.tick + n }

/-- `S_DATA(8 * n)`: the bytes the slave engine has placed in RXW, chosen by the environment (R8, R9). -/
def Env.sData (e : Env) (n : Nat) : List Byte := (List.range n).flatMap (fun k => blockBytes (e.blockAt k))

/-! ### Event primitives (00_scope R8): each appends one entry to TRACE (10_state R29) -/

/-- Append one entry to TRACE. -/
def emit (ev : Event) (s : State) : State := { s with trace := s.trace ++ [ev] }

/-- `S_ARM(n)`: arm the slave-side receive transaction for `n` bytes; S_ARMED follows `ARM_OK` (R28). While the
transaction is armed RXW has no content that may be read (20_memory R48): it holds no value. -/
def sArm (n : Nat) (s : State) : ArmAns × State :=
  match s.env.armAt 0 with
  | .armOk => (.armOk, emit (.sArm n .armOk) { s with env := s.env.afterArm, sArmed := true, rxw := [] })
  | .armFail => (.armFail, emit (.sArm n .armFail) { s with env := s.env.afterArm })

/-- What the trace shows of an `M_XFER` answer: the received block only for `FULL` (R8, 43_tpl_engine R87). -/
def xferSeen (dup : Duplex) (a : XferAns) : XferSeen :=
  match a, dup with
  | .ok r, .full => .ok (some r)
  | .ok _, .txOnly => .ok none
  | .timeout, _ => .timeout
  | .fail, _ => .fail

/-- `M_XFER(w, dup)`: one blocking master-side transaction sending `w` (R8, 20_memory R43). -/
def mXfer (w : Block) (dup : Duplex) (s : State) : XferAns × State :=
  (s.env.nextXfer, emit (.mXfer w dup (xferSeen dup s.env.nextXfer)) { s with env := s.env.afterXfer })

/-- `S_POLL()`: read the slave-side busy status; S_ARMED ends with `S_IDLE` (R28), and the `n` blocks of the transaction
are then in RXW (`S_DATA`, R8, 20_memory R48). -/
def sPoll (n : Nat) (s : State) : PollAns × State :=
  match s.env.pollAt 0 with
  | .busy => (.busy, emit (.sPoll .busy) { s with env := s.env.afterPolls 1 })
  | .idle =>
    (.idle, emit (.sPoll .idle)
      { s with env := (s.env.afterPolls 1).afterData n, sArmed := false,
               rxw := Memory.writeList [] 0 ((s.env.afterPolls 1).sData n) })

/-- `S_ABORT()`: abort the slave-side transaction; S_ARMED ends (R28) and RXW holds no value (20_memory R48). -/
def sAbort (s : State) : State := emit .sAbort { s with sArmed := false, rxw := [] }

/-- `CS_ASSERT()` with `CS_TX <- ASSERTED` (R8, R28, 43_tpl_engine R84). -/
def csAssert (s : State) : State := emit .csAssert { s with csTx := .asserted }

/-- `CS_DEASSERT()` with `CS_TX <- DEASSERTED` (R8, R28, 43_tpl_engine R84). -/
def csDeassert (s : State) : State := emit .csDeassert { s with csTx := .deasserted }

/-- `DELAY_US(n)`: a trace entry only (R8, 70_reset_and_hazards R152). -/
def delayUs (n : Nat) (s : State) : State := emit (.delayUs n) s

/-! ### Registers an operation writes -/

/-- `RXN <- n`; the elements `RXF[k]` with `k >= RXN` then hold no value (10_state R17, R33). -/
def putRxn (n : Nat) (s : State) : State :=
  { s with rxn := BitVec.ofNat 16 n, rxf := Memory.below s.rxf n }

/-- Issue: BUSY <- 1, DONE <- 0, ERR <- 0, and the sequencer moves to the operation's first phase (R20, R22). -/
def issue (p : Phase) (s : State) : State := { s with status := issuedStatus s.status, ph := p }

/-- Issue of a transfer, which also clears RXN (R77, R84). -/
def issueTransfer (p : Phase) (s : State) : State := putRxn 0 (issue p s)

/-! ### The end of an operation (60_exceptions R121) -/

/-- `complete(code)`: ERR <- code, BUSY <- 0, DONE <- 1, PH <- IDLE. -/
def complete (e : Code) (s : State) : State := { s with status := completedStatus e s.status, ph := .idle }

/-- `raise E`: `RXN <- 0 ; complete(E)`. An error invalidates RXF and RXW (R136, 42_spi_engine R82,
43_tpl_engine R98). Nothing is saved and no control is transferred: the error is a value in STATUS.ERR. -/
def raiseError (e : Code) (s : State) : State := complete e (putRxn 0 { s with rxw := [] })

/-! ### Running a looping phase -/

/-- Repeat a phase while the sequencer stays in it, at most `fuel` times. -/
def runPhase (p : Phase) (body : State → State) : Nat → State → State
  | 0, s => s
  | fuel + 1, s => if s.ph = p then runPhase p body fuel (body s) else s

end Sys2Proof.Machine
end

