-- ==== Sys2Proof/Machine/Operands.lean ====
section
/-! DEFINITION. What an operation needs before it has a meaning, and the refusals without it (60_exceptions R127); the
operands an operation reads (30_encoding R61). -/

namespace Sys2Proof.Machine

/-- An operation is issued only while none is in progress: BUSY = 0 and PH = IDLE (R19, R22, RF1). -/
def whenIdle (s : State) (k : Answer) : Answer :=
  if busyOf s.status = false ∧ s.ph = .idle then k else .refused .operationInProgress

/-- The configuration has the operation (30_encoding R66, RF3). -/
def whenInMode (i : Instr) (s : State) (k : Answer) : Answer :=
  if i.wellFormed s.cfg.mode = true then k else .refused .wrongMode

/-- The operand in register number `n`, refused where it holds no value (10_state R33, RF7). -/
def withOperand {α : Type} (n : Nat) (v : Option α) (k : α → Answer) : Answer :=
  match v with
  | some x => k x
  | none => .refused (.noOperand n)

/-- `1 <= NFR <= MAX_FRAMES` (43_tpl_engine R84, RF4). -/
def whenFrameCount (n : Nat) (s : State) (k : Answer) : Answer :=
  if 1 ≤ n ∧ n ≤ s.cfg.maxFrames then k else .refused (.badFrameCount n)

/-- The table has not been built (44_temp_table R106, RF5). -/
def whenTableUnbuilt (s : State) (k : Answer) : Answer :=
  if tblValidOf s.status = false then k else .refused .tableAlreadyBuilt

/-- The temperature model's parameters are legal (00_scope R5, 44_temp_table R100, 93 U9). -/
def whenThermalLegal (s : State) (k : Answer) : Answer :=
  if thermalLegal s.cfg = true then k else .refused .badParameters

/-- The table has been built (RF6). -/
def whenTableBuilt (s : State) (k : Answer) : Answer :=
  if tblValidOf s.status = true then k else .refused .tableNotBuilt

/-- The table holds all of its NT entries, NT is at least 2, and it is non-increasing (45_temp_inverter R108's
precondition, 44_temp_table R104, R105). -/
def tableFit (c : Cfg) (t : Memory Word16) : Bool :=
  decide (2 ≤ nt c) && t.map Prod.fst == List.range (nt c) && neverRising (t.map (fun p => p.2.toNat))

/-- The table meets the inverter's precondition (R108, 93 U8). -/
def whenTableFit (s : State) (k : Answer) : Answer :=
  if tableFit s.cfg s.tbl = true then k else .refused .tableUnfit

end Sys2Proof.Machine
end

