-- ==== Sys2Proof/Machine/Codec.lean ====
section
/-! DEFINITION. The Frame Codec (41_frame_codec R71, R72, R76) and the operations ENC and DEC. -/

namespace Sys2Proof.Machine

/-- `encode`: the first four bytes reversed, the fifth copied, three bytes of zero padding (R71, 30_encoding R54, R55). -/
def encodeFrame (f : Frame) : Block :=
  { w0 := f.f3, w1 := f.f2, w2 := f.f1, w3 := f.f0, w4 := f.f4, w5 := 0#8, w6 := 0#8, w7 := 0#8 }

/-- `decode`: the first four bytes reversed, the fifth copied, the padding not read (R72, 30_encoding R56). -/
def decodeBlock (w : Block) : Frame := { f0 := w.w3, f1 := w.w2, f2 := w.w1, f3 := w.w0, f4 := w.w4 }

/-- ENC runs when no operation is in progress and TXF holds a value; it completes in the issuing step (R22). -/
def startEnc (s : State) (k : Frame → Answer) : Answer :=
  whenIdle s (withOperand 2 s.txf k)

/-- `ENC`: `WOUT <- encode(TXF)` (R71). -/
def execEnc (s : State) : Answer :=
  startEnc s fun f => .next (complete .ok { s with wout := some (encodeFrame f) })

/-- DEC runs when no operation is in progress and WIN holds a value; it completes in the issuing step (R22). -/
def startDec (s : State) (k : Block → Answer) : Answer :=
  whenIdle s (withOperand 4 s.win k)

/-- `DEC`: `FOUT <- decode(WIN)` (R72). -/
def execDec (s : State) : Answer :=
  startDec s fun w => .next (complete .ok { s with fout := some (decodeBlock w) })

end Sys2Proof.Machine
end

