-- ==== Sys2Proof/Machine/Spi.lean ====
section
/-! DEFINITION. The Bus Engine, SPI mode: SPIX (42_spi_engine R77 to R83). -/

namespace Sys2Proof.Machine

/-- Issue of SPIX: available in MODE = SPI, its operand TXF holds a value (R77, RF1, RF3, RF7). The continuation gets
TXF and the issued state, in phase SPI_XFER with RXN = 0. -/
def startSpix (s : State) (k : Frame → State → Answer) : Answer :=
  whenIdle s (whenInMode .spix s (withOperand 2 s.txf fun f => k f (issueTransfer .spiXfer s)))

/-- The end of SPIX by the answer of its one exchange (R77, R79, R80): on `M_OK(r)` the master engine has written `r`
to RXW, and RXF[0] is its decoding whatever it is. -/
def spiAnswered (a : XferAns) (s : State) : State :=
  match a with
  | .ok r =>
    complete .ok (putRxn 1 { s with
      rxw := Memory.writeBlock s.rxw 0 r,
      rxf := Memory.put s.rxf 0 ((Memory.readBlock (Memory.writeBlock s.rxw 0 r) 0).map decodeBlock) })
  | .timeout => raiseError .timeout s
  | .fail => raiseError .busBusy s

/-- Phase SPI_XFER: TXW <- encode(TXF), then exactly one full-duplex `M_XFER` (R77, R78, 20_memory R35). -/
def spiXfer (f : Frame) (s : State) : State :=
  let r := mXfer (encodeFrame f) .full { s with txw := Memory.writeBlock s.txw 0 (encodeFrame f) }
  spiAnswered r.1 r.2

/-- `SPIX`: SPI-mode transfer, from issue to completion (R77). -/
def execSpix (s : State) : Answer :=
  startSpix s fun f s' => .next (spiXfer f s')

end Sys2Proof.Machine
end

