-- ==== Sys2Proof/Machine/TempInvert.lean ====
section
/-! DEFINITION. The Temperature Inverter: TINV (45_temp_inverter R108 to R117), one definition per phase. -/

namespace Sys2Proof.Machine

/-- Issue of TINV: the table is built and meets the precondition, RAW holds a value (R108, RF1, RF6, RF7, 93 U8). -/
def startTinv (s : State) (k : Nat → State → Answer) : Answer :=
  whenIdle s (whenTableBuilt s (withOperand 5 s.raw fun r => whenTableFit s (k r.toNat (issue .invRange s))))

/-- `TBL[i]` as an unsigned number (20_memory R37, 30_encoding R64). It is read only below NT of a table that
`whenTableFit` has found complete, so the last case is not taken. -/
def entryAt (s : State) (i : Nat) : Nat :=
  match Memory.read s.tbl i with
  | some v => v.toNat
  | none => 0

/-- A reading: TEMP and INRANGE are written together, then completion (R18, R108). TEMP is 16 bits two's complement
(30_encoding R63). -/
def reading (tenths : Int) (ok : Bool) (s : State) : State :=
  complete .ok { s with temp := some (BitVec.ofInt 16 tenths), status := putInRange ok s.status }

/-- Phase INV_RANGE: below the last entry is tested first (R109), then above the first (R110); in range, the whole
table is the first bracket (R111). DESIGN CHOICE, log entry 11: R108 writes `SL <- 0 ; SR <- NT - 1` under INV_BISECT;
this step does so as it enters INV_BISECT, so that a step in INV_BISECT is one turn of the loop. -/
def invRange (raw : Nat) (s : State) : State :=
  if raw < entryAt s (nt s.cfg - 1) then reading (10 * s.cfg.tMax) false s
  else if entryAt s 0 < raw then reading (10 * s.cfg.tMin) false s
  else { s with sl := 0, sr := nt s.cfg - 1, ph := .invBisect }

/-- Phase INV_BISECT, one turn of the loop: at adjacent brackets the search ends, else the middle entry is probed, and
one that is at most RAW becomes the right bracket (R111). -/
def invBisect (raw : Nat) (s : State) : State :=
  if s.sl + 1 = s.sr then { s with ph := .invInterp }
  else if entryAt s ((s.sl + s.sr) / 2) ≤ raw then { s with sm := (s.sl + s.sr) / 2, sr := (s.sl + s.sr) / 2 }
  else { s with sm := (s.sl + s.sr) / 2, sl := (s.sl + s.sr) / 2 }

/-- The fractional tenths in a bracket from `left` to `right` (R113): both divisions are integer divisions truncating
toward zero, the inner one first, and a zero divisor gives 0 (R114). -/
def fraction (left right raw : Int) : Int :=
  let d := (left - right).tdiv 10
  if d = 0 then 0 else (left - raw).tdiv d

/-- Phase INV_INTERP: `TEMP <- 10 * (T_MIN + SL) + frac`, in range (R113 to R115). -/
def invInterp (raw : Nat) (s : State) : State :=
  reading (10 * tempAt s.cfg s.sl + fraction (entryAt s s.sl) (entryAt s (s.sl + 1)) raw) true s

/-- The bisection loop (R111): it ends within NT turns (R112). -/
def invBisects (raw : Nat) (s : State) : State := runPhase .invBisect (invBisect raw) (nt s.cfg) s

/-- The phases of TINV from the issued state (R108). -/
def invRun (raw : Nat) (s : State) : State :=
  let s1 := invRange raw s
  if s1.ph = .invBisect then
    let s2 := invBisects raw s1
    if s2.ph = .invInterp then invInterp raw s2 else s2
  else s1

/-- `TINV`: invert a raw code to a temperature (R108). -/
def execTinv (s : State) : Answer :=
  startTinv s fun raw s' => .next (invRun raw s')

end Sys2Proof.Machine
end

