-- ==== Sys2Proof/Machine/TempTable.lean ====
section
/-! DEFINITION. The Temperature Table Builder: TBLD (44_temp_table R100 to R107). The arithmetic stands in
`Machine/Numerics.lean`. -/

namespace Sys2Proof.Machine

/-- Issue of TBLD: the table is not built yet and the parameters are legal (R100, R106, RF1, RF5, 93 U9). -/
def startTbld (s : State) (k : State → Answer) : Answer :=
  whenIdle s (whenTableUnbuilt s (whenThermalLegal s (k (issue .tblFill s))))

/-- Write the entries of `count` indices from `i` on, in increasing order (R100, 20_memory R42). -/
def fillTable (c : Cfg) : Nat → Nat → Memory Word16 → Memory Word16
  | 0, _, t => t
  | count + 1, i, t => fillTable c count (i + 1) (Memory.write t i (entryCode c i))

/-- Phase TBL_FILL: all NT entries, then `TBL_VALID <- 1` and completion (R100). -/
def tblFill (s : State) : State :=
  complete .ok { s with tbl := fillTable s.cfg (nt s.cfg) 0 s.tbl, status := putTblValid true s.status }

/-- `TBLD`: build the Temperature Table (R100). -/
def execTbld (s : State) : Answer :=
  startTbld s fun s' => .next (tblFill s')

end Sys2Proof.Machine
end

