-- ==== Sys2Proof/Machine/Tpl.lean ====
section
/-! DEFINITION. The Dual Bus Engine, TPL mode: TPLX (43_tpl_engine R84 to R99), one definition per phase. -/

namespace Sys2Proof.Machine

/-- Issue of TPLX: available in the TPL variants, its operands TXF and NFR hold values, and 1 <= NFR <= MAX_FRAMES
(R84, RF1, RF3, RF4, RF7). The continuation gets TXF, NFR and the issued state, in phase TPL_ARM with RXN = 0. -/
def startTplx (s : State) (k : Frame → Nat → State → Answer) : Answer :=
  whenIdle s (whenInMode .tplx s (withOperand 2 s.txf fun f => withOperand 3 s.nfr fun n =>
    whenFrameCount n.toNat s (k f n.toNat (issueTransfer .tplArm s))))

/-- Phase TPL_ARM, step 1: arm for `8 * NFR` bytes (R85, 30_encoding R58); a failed arm ends the operation with
`BusBusy` and nothing else (R86). -/
def tplArm (n : Nat) (s : State) : State :=
  let r := sArm (8 * n) s
  match r.1 with
  | .armOk => { r.2 with ph := .tplTx }
  | .armFail => raiseError .busBusy r.2

/-- The chip-select is asserted before the transmit, in TPL_SWCS only (R88). -/
def frameBegin (s : State) : State :=
  match s.cfg.mode with
  | .tplSwcs => csAssert s
  | .tplHwcs => s
  | .spi => s

/-- After the transmit, whatever its answer: the settle delay, then the chip-select is deasserted, in TPL_SWCS only
(R88, R90). -/
def frameEnd (s : State) : State :=
  match s.cfg.mode with
  | .tplSwcs => csDeassert (delayUs s.cfg.settleUs s)
  | .tplHwcs => s
  | .spi => s

/-- What follows the transmit (R84 step 2): on `M_OK` the poll loop begins with `BUD <- BUDGET0` (R92, 10_state R23;
that this step writes it, on entry to TPL_POLL, is log entry 11, DESIGN CHOICE); on a failure the armed slave
transaction is aborted before the error is raised (R90, R91). -/
def tplSent (m : XferAns) (s : State) : State :=
  match m with
  | .ok _ => { s with ph := .tplPoll, bud := budget0 s.cfg }
  | .timeout => raiseError .timeout (sAbort s)
  | .fail => raiseError .busBusy (sAbort s)

/-- Phase TPL_TX, step 2: TXW <- encode(TXF), then one transmit-only `M_XFER` inside the chip-select framing (R87). -/
def tplTx (f : Frame) (s : State) : State :=
  let r := mXfer (encodeFrame f) .txOnly (frameBegin { s with txw := Memory.writeBlock s.txw 0 (encodeFrame f) })
  tplSent r.1 (frameEnd r.2)

/-- Phase TPL_POLL, one turn of the loop of step 3: the budget is tested first, then one poll, and a busy poll costs one
unit (R92). -/
def tplPoll (n : Nat) (s : State) : State :=
  if s.bud = 0 then { s with ph := .tplTimeout }
  else
    let r := sPoll n s
    match r.1 with
    | .idle => { r.2 with ph := .tplDecode }
    | .busy => { r.2 with bud := r.2.bud - 1 }

/-- Phase TPL_TIMEOUT, step 4: abort, then `Timeout` (R93). -/
def tplTimeout (s : State) : State := raiseError .timeout (sAbort s)

/-- `RXF[k] <- decode(MemRead(RXW, 8 * k, 8))` for `count` blocks from block `k` on, in increasing order (R84 step 5,
R94): each block on its own. -/
def decodeBlocks (rxw : Memory Byte) : Nat → Nat → Memory Frame → Memory Frame
  | 0, _, rxf => rxf
  | count + 1, k, rxf =>
    decodeBlocks rxw count (k + 1) (Memory.put rxf k ((Memory.readBlock rxw (8 * k)).map decodeBlock))

/-- Phase TPL_DECODE, step 5: decode the NFR blocks, `RXN <- NFR`, complete (R94). -/
def tplDecode (n : Nat) (s : State) : State :=
  complete .ok (putRxn n { s with rxf := decodeBlocks s.rxw n 0 s.rxf })

/-- The poll loop (R92): it ends within `BUD + 1` turns. -/
def tplPolls (n : Nat) (s : State) : State := runPhase .tplPoll (tplPoll n) (s.bud + 1) s

/-- Steps 4 and 5 are alternatives: execution goes on at the phase that PH names (R84). -/
def tplFinish (n : Nat) (s : State) : State :=
  if s.ph = .tplTimeout then tplTimeout s
  else if s.ph = .tplDecode then tplDecode n s
  else s

/-- Steps 1 to 5 from the issued state (R84, R95): an error ends the operation at its step. -/
def tplRun (n : Nat) (f : Frame) (s : State) : State :=
  let s1 := tplArm n s
  if s1.ph = .tplTx then
    let s2 := tplTx f s1
    if s2.ph = .tplPoll then tplFinish n (tplPolls n s2) else s2
  else s1

/-- `TPLX`: TPL-mode transfer, from issue to completion (R84). -/
def execTplx (s : State) : Answer :=
  startTplx s fun f n s' => .next (tplRun n f s')

end Sys2Proof.Machine
end

