-- ==== Sys2Proof/Machine/Dispatch.lean ====
section
/-! DEFINITION. exec: one arm per operation, each one direct call of its meaning. -/
namespace Sys2Proof.Machine
/-- The effect of an operation, from issue to completion (20_memory R44, 92 D5: an operation is atomic to the host). -/
def exec (i : Instr) (s : State) : Host.Outcome State Fault Refusal :=
  match i with
  | .enc => Sys2Proof.Machine.execEnc s
  | .dec => Sys2Proof.Machine.execDec s
  | .spix => Sys2Proof.Machine.execSpix s
  | .tplx => Sys2Proof.Machine.execTplx s
  | .tbld => Sys2Proof.Machine.execTbld s
  | .tinv => Sys2Proof.Machine.execTinv s
end Sys2Proof.Machine
end

