-- ==== Sys2Proof/Machine/Sequencer.lean ====
section
/-! DEFINITION. The sequencer phase by phase (10_state R22): the issue of an operation alone, and one phase. The phases
are the same definitions that `exec` composes. -/

namespace Sys2Proof.Machine

/-- The issuing step alone (R19, R22): ENC and DEC complete in it, the others are left in their first phase with
BUSY = 1. -/
def issueOnly (i : Instr) (s : State) : Answer :=
  match i with
  | .enc => execEnc s
  | .dec => execDec s
  | .spix => startSpix s fun _ s' => .next s'
  | .tplx => startTplx s fun _ _ s' => .next s'
  | .tbld => startTbld s fun s' => .next s'
  | .tinv => startTinv s fun _ s' => .next s'

/-- The blocks of the transaction lie inside RXW (20_memory R34, R36). -/
def whenInsideRxw (n : Nat) (s : State) (k : Answer) : Answer :=
  if n ≤ s.cfg.maxFrames then k else .fault (.outsideSpace .rxw (8 * s.cfg.maxFrames))

/-- The bracket lies inside TBL and is not empty (20_memory R37, 10_state R24). -/
def whenInsideTbl (s : State) (k : Answer) : Answer :=
  if s.sl < s.sr ∧ s.sr < nt s.cfg then k else .fault (.outsideSpace .tbl s.sr)

/-- One phase of the operation in progress, one turn of the loop in TPL_POLL and INV_BISECT; in IDLE the sequencer waits
(70_reset_and_hazards R139). Where one step ends and the next begins is log entry 11 (DESIGN CHOICE). The operand
registers are those of the issue: the host cannot write them meanwhile (R31). -/
def seqStep (s : State) : Answer :=
  match s.ph with
  | .idle => .next s
  | .spiXfer => withOperand 2 s.txf fun f => .next (spiXfer f s)
  | .tplArm => withOperand 3 s.nfr fun n => whenInsideRxw n.toNat s (.next (tplArm n.toNat s))
  | .tplTx => withOperand 2 s.txf fun f => .next (tplTx f s)
  | .tplPoll => withOperand 3 s.nfr fun n => whenInsideRxw n.toNat s (.next (tplPoll n.toNat s))
  | .tplTimeout => .next (tplTimeout s)
  | .tplDecode => withOperand 3 s.nfr fun n => whenInsideRxw n.toNat s (.next (tplDecode n.toNat s))
  | .tblFill => whenThermalLegal s (.next (tblFill s))
  | .invRange => withOperand 5 s.raw fun r => whenTableFit s (.next (invRange r.toNat s))
  | .invBisect => withOperand 5 s.raw fun r => whenTableFit s (whenInsideTbl s (.next (invBisect r.toNat s)))
  | .invInterp => withOperand 5 s.raw fun r => whenTableFit s (whenInsideTbl s (.next (invInterp r.toNat s)))

end Sys2Proof.Machine
end

