-- ==== Sys2Proof/Machine/HostPort.lean ====
section
/-! DEFINITION. The host's accesses (10_state R19, R30, R31; 60_exceptions R127, R135) and the reset input
(70_reset_and_hazards R138 to R140). -/

namespace Sys2Proof.Machine

/-- A write of `c` to CMD while no operation is in progress issues the operation that `c` encodes (R19); here the whole
operation is shown as one step (92 D5). -/
def runCommand (c : Byte) (s : State) : Answer :=
  if busyOf s.status = true then .refused .operationInProgress
  else
    match decodeCmd c with
    | .ok i => exec i s
    | .error _ => .refused (.reservedCommand c)

/-- The same write of CMD, the operation then shown phase by phase (R19, R22). -/
def postCommand (c : Byte) (s : State) : Answer :=
  if busyOf s.status = true then .refused .operationInProgress
  else
    match decodeCmd c with
    | .ok i => issueOnly i s
    | .error _ => .refused (.reservedCommand c)

/-- A host write of a register other than CMD (R30, R31): the operand registers, while BUSY = 0. -/
def hostWrite (n : Nat) (v : RegVal) (s : State) : Answer :=
  if busyOf s.status = true then .refused .operationInProgress
  else
    match n, v with
    | 2, .frame f => .next { s with txf := some f }
    | 3, .word w => .next { s with nfr := some w }
    | 4, .block b => .next { s with win := some b }
    | 5, .word w => .next { s with raw := some w }
    | _, _ => .refused (.badAccess n)

/-- The host has read `v` from register `n`: no effect on the transceiver (20_memory R43). -/
def deliver (n : Nat) (v : RegVal) (s : State) : State := { s with seen := s.seen ++ [(n, v)] }

/-- A read of a register that may hold no value (R33, RF9). -/
def deliverHeld (n : Nat) (v : Option RegVal) (s : State) : Answer :=
  match v with
  | some x => .next (deliver n x s)
  | none => .refused (.noValue n)

/-- A host read of a register other than STATUS, by its number (R30): numbers 10 to 15 and above `15 + MAX_FRAMES` name
no register, and CMD is write-only (RF8). -/
def readRegister (n : Nat) (s : State) : Answer :=
  if n = 2 then deliverHeld n (s.txf.map RegVal.frame) s
  else if n = 3 then deliverHeld n (s.nfr.map RegVal.word) s
  else if n = 4 then deliverHeld n (s.win.map RegVal.block) s
  else if n = 5 then deliverHeld n (s.raw.map RegVal.word) s
  else if n = 6 then deliverHeld n (s.wout.map RegVal.block) s
  else if n = 7 then deliverHeld n (s.fout.map RegVal.frame) s
  else if n = 8 then deliverHeld n (some (.word s.rxn)) s
  else if n = 9 then deliverHeld n (s.temp.map RegVal.word) s
  else if 16 ≤ n ∧ n < 16 + s.cfg.maxFrames then deliverHeld n ((Memory.read s.rxf (n - 16)).map RegVal.frame) s
  else .refused (.badAccess n)

/-- A host read (R30, R31): STATUS at any time, every other register only while BUSY = 0. -/
def hostRead (n : Nat) (s : State) : Answer :=
  if n = 1 then .next (deliver 1 (.byte s.status) s)
  else if busyOf s.status = true then .refused .operationInProgress
  else readRegister n s

/-- The reset input (R138 to R140): every item of the transceiver takes its reset value; the configuration, the
environment and the host go on. Reset while BUSY = 1 is refused. -/
def resetInput (s : State) : Answer :=
  if busyOf s.status = true then .refused .resetInProgress
  else .next { State.resetWith s.cfg with env := s.env, host := s.host, seen := s.seen }

/-- The host waits for DONE (95_test_vectors part 3): the read that sees DONE = 1 is delivered and ends the wait; until
then the sequencer goes on. -/
def hostWait (s : State) : Answer :=
  if doneOf s.status = true then .next (deliver 1 (.byte s.status) s)
  else seqStep { s with host := .wait :: s.host }

/-- One access of the host, already taken from its queue. -/
def serve (a : HostAccess) (s : State) : Answer :=
  match a with
  | .write 0 (.byte c) => runCommand c s
  | .write n v => hostWrite n v s
  | .post c => postCommand c s
  | .read n => hostRead n s
  | .wait => hostWait s
  | .pass => seqStep s
  | .reset => resetInput s

/-- The caller's part of a call, as far as it is missing (30_encoding R70, 60_exceptions R135; log entry 7): a variant
that has the operation, operand registers that hold a value, a legal NFR, a built table. -/
def prepareFor (i : Instr) (s : State) : State :=
  match i with
  | .enc => { s with txf := some (s.txf.getD default) }
  | .dec => { s with win := some (s.win.getD default) }
  | .spix => { s with cfg := { s.cfg with mode := .spi }, txf := some (s.txf.getD default) }
  | .tplx =>
    { s with
      cfg := { s.cfg with mode := if s.cfg.mode = .spi then .tplHwcs else s.cfg.mode },
      txf := some (s.txf.getD default),
      nfr := some (if 1 ≤ (s.nfr.getD 0#16).toNat ∧ (s.nfr.getD 0#16).toNat ≤ s.cfg.maxFrames then s.nfr.getD 0#16
        else 1#16) }
  | .tbld => s
  | .tinv =>
    if tblValidOf s.status = true then { s with raw := some (s.raw.getD 0#16) }
    else
      { s with raw := some (s.raw.getD 0#16), tbl := fillTable s.cfg (nt s.cfg) 0 s.tbl,
               status := putTblValid true s.status }

end Sys2Proof.Machine
end

