-- ==== Sys2Proof/Machine/Step.lean ====
section
/-! DEFINITION. One step: the host's next access, or, where the host is silent, the sequencer's next phase
(10_state R22, R31; 20_memory R44, R47). -/

namespace Sys2Proof.Machine

/-- One step of the machine. The host's queue says who moves: an access of the host is served, and where none is waiting
the sequencer goes on (in IDLE it waits for the first CMD write, 70_reset_and_hazards R139). -/
def step (s : State) : Host.Outcome State Fault Refusal :=
  match s.host with
  | [] => seqStep s
  | a :: rest => serve a { s with host := rest }

/-- `s` with the command of `nbits` bits `w` where the next step takes it from: the head of the host's queue, as a write
of CMD (R19). Where the bits are a command, the caller's part of the call is done as far as it is missing (log entry 7). -/
def State.withFetchWord (s : State) (nbits w : Nat) : State :=
  match decodeTableWord nbits w with
  | some i => { prepareFor i s with host := .write 0 (.byte (tableByte nbits w)) :: s.host }
  | none => { s with host := .write 0 (.byte (tableByte nbits w)) :: s.host }

end Sys2Proof.Machine
end

