-- ==== Sys2Proof/Safety.lean ====
section
/-! DEFINITION. What claims say of the machine as a whole: the phases of each engine, the invariant of every step, the
trace of an operation, and runs with a silent host. -/

namespace Sys2Proof.Machine

/-- The phases in which the slave transaction is armed (10_state R28): after step 1 of TPLX until it has ended. -/
def armedPhase (p : Phase) : Bool :=
  match p with
  | .tplTx | .tplPoll | .tplTimeout => true
  | .idle | .spiXfer | .tplArm | .tplDecode | .tblFill | .invRange | .invBisect | .invInterp => false

/-- The phases of TPLX (R22). -/
def tplPhase (p : Phase) : Bool :=
  match p with
  | .tplArm | .tplTx | .tplPoll | .tplTimeout | .tplDecode => true
  | .idle | .spiXfer | .tblFill | .invRange | .invBisect | .invInterp => false

/-- The phases of TINV (R22). -/
def invPhase (p : Phase) : Bool :=
  match p with
  | .invRange | .invBisect | .invInterp => true
  | .idle | .spiXfer | .tplArm | .tplTx | .tplPoll | .tplTimeout | .tplDecode | .tblFill => false

/-- The cells of a space that hold a value are exactly those below `n`. -/
def heldBelow {α : Type} (m : Memory α) (n : Nat) : Prop := m.map Prod.fst = List.range n

/-- Every cell that holds a value has an address below `n`. -/
def insideSpace {α : Type} (m : Memory α) (n : Nat) : Prop := ∀ p ∈ m, p.1 < n

/-- What holds of the machine between two steps of the model: the clauses on CS_TX and on the bracket rest on where log
entry 11 (DESIGN CHOICE) ends a step. -/
structure Inv (s : State) : Prop where
  /-- The configuration is legal (00_scope R5). -/
  legal : CfgLegal s.cfg
  /-- TXW keeps its canonical form and lies in its 8 bytes (20_memory R34). -/
  txw : Memory.wf s.txw ∧ insideSpace s.txw 8
  /-- RXW keeps its canonical form and lies in its `8 * MAX_FRAMES` bytes (20_memory R34). -/
  rxw : Memory.wf s.rxw ∧ insideSpace s.rxw (8 * s.cfg.maxFrames)
  /-- `RXF[k]` holds a value exactly for `k < RXN`, and RXN is at most MAX_FRAMES (10_state R17). -/
  rxf : heldBelow s.rxf s.rxn.toNat ∧ s.rxn.toNat ≤ s.cfg.maxFrames
  /-- With TBL_VALID = 0 no entry of TBL holds a value; with TBL_VALID = 1 all do, and they never rise
  (10_state R32, 44_temp_table R104, R105). -/
  tbl : (tblValidOf s.status = false → s.tbl = []) ∧ (tblValidOf s.status = true → tableFit s.cfg s.tbl = true)
  /-- Reserved bits read 0 and ERR = 3 is never produced (10_state R20, 30_encoding R67). -/
  status : reservedOf s.status = 0#2 ∧ errOf s.status ≠ 3#2
  /-- BUSY is 1 exactly while an operation is in progress, and DONE is then 0 (10_state R20, R22). -/
  busy : (busyOf s.status = true ↔ s.ph ≠ .idle) ∧ (busyOf s.status = true → doneOf s.status = false)
  /-- S_ARMED follows the phases of TPLX; the chip-select is never left asserted (10_state R28, 60_exceptions R122). -/
  engines : s.sArmed = armedPhase s.ph ∧ s.csTx = .deasserted
  /-- BUD never exceeds BUDGET0 (10_state R23). -/
  bud : s.bud ≤ budget0 s.cfg
  /-- SPIX in progress: its mode, its operand, no result yet (42_spi_engine R77). -/
  spi : s.ph = .spiXfer → s.cfg.mode = .spi ∧ s.txf ≠ none ∧ s.rxn = 0#16
  /-- TPLX in progress: its mode, its operands, no result yet (43_tpl_engine R84). -/
  tpl : tplPhase s.ph = true → s.cfg.mode ≠ .spi ∧ s.txf ≠ none ∧ s.rxn = 0#16 ∧
    ∃ n, s.nfr = some n ∧ 1 ≤ n.toNat ∧ n.toNat ≤ s.cfg.maxFrames ∧
      (s.ph = .tplDecode → heldBelow s.rxw (8 * n.toNat))
  /-- TBLD in progress: the table is not built yet (44_temp_table R100). -/
  fill : s.ph = .tblFill → tblValidOf s.status = false
  /-- TINV in progress: its operand, a built table, and a bracket inside it (45_temp_inverter R112). -/
  inv : invPhase s.ph = true → tblValidOf s.status = true ∧
    ∃ r, s.raw = some r ∧
      (s.ph ≠ .invRange → s.sl < s.sr ∧ s.sr < nt s.cfg ∧ r.toNat ≤ entryAt s s.sl ∧ entryAt s s.sr ≤ r.toNat ∧
        (0 < s.sl → r.toNat < entryAt s s.sl)) ∧
      (s.ph = .invInterp → s.sr = s.sl + 1)

/-- No operation is in progress: the state in which the host may issue one (10_state R19, R22). -/
def ready (s : State) : Prop := busyOf s.status = false ∧ s.ph = .idle

/-- The state with the items of 10_state R10 that no operation reads from a previous one set aside. -/
def hideScratch (s : State) : State := { s with bud := 0, sl := 0, sr := 0, sm := 0, txw := [], rxw := [] }

/-- The trace entries of the transmit of `w` in the configuration's chip-select framing (43_tpl_engine R88, R97). -/
def framedTransmit (c : Cfg) (w : Block) (a : XferSeen) : List Event :=
  match c.mode with
  | .tplSwcs => [.csAssert, .mXfer w .txOnly a, .delayUs c.settleUs, .csDeassert]
  | .tplHwcs => [.mXfer w .txOnly a]
  | .spi => [.mXfer w .txOnly a]

/-- The entry is an `S_ABORT`. -/
def isAbort (e : Event) : Bool :=
  match e with
  | .sAbort => true
  | .sArm _ _ | .mXfer _ _ _ | .sPoll _ | .csAssert | .csDeassert | .delayUs _ => false

/-- The entry is an `S_POLL`. -/
def isPoll (e : Event) : Bool :=
  match e with
  | .sPoll _ => true
  | .sAbort | .sArm _ _ | .mXfer _ _ _ | .csAssert | .csDeassert | .delayUs _ => false

/-- The entry is an `M_XFER`. -/
def isXfer (e : Event) : Bool :=
  match e with
  | .mXfer _ _ _ => true
  | .sPoll _ | .sAbort | .sArm _ _ | .csAssert | .csDeassert | .delayUs _ => false

/-- The entry is an `S_ARM`. -/
def isArm (e : Event) : Bool :=
  match e with
  | .sArm _ _ => true
  | .mXfer _ _ _ | .sPoll _ | .sAbort | .csAssert | .csDeassert | .delayUs _ => false

/-- `k` phases of the sequencer, the host silent. -/
def seqRun : Nat → State → Answer
  | 0, s => .next s
  | k + 1, s =>
    match seqStep s with
    | .next s' => seqRun k s'
    | .fault r => .fault r
    | .refused r => .refused r

end Sys2Proof.Machine
end

