-- ==== Sys2Proof/Certificates/Slice0/Obligations.lean ====
section
/-! DEFINITION. The statements for the provers. -/

open Sys2Proof Sys2Proof.Machine

/-! ### Commands -/

/-- The command bytes of 30_encoding R60, and three reserved ones of R65. -/
def Obligations.CommandBytesDecode : Prop :=
  decode [0x01#8] = .ok (.enc, []) ∧ decode [0x02#8] = .ok (.dec, []) ∧ decode [0x03#8] = .ok (.spix, []) ∧
  decode [0x04#8] = .ok (.tplx, []) ∧ decode [0x05#8] = .ok (.tbld, []) ∧ decode [0x06#8] = .ok (.tinv, []) ∧
  decode [0x00#8] = .error .reservedCode ∧ decode [0x07#8] = .error .reservedCode ∧
  decode [0x83#8] = .error .reservedBits

/-- Decoding inverts encoding, whatever bytes follow (R59). -/
def Obligations.DecodeInvertsEncode : Prop :=
  ∀ (i : Instr) (rest : List Byte), decode (encode i ++ rest) = .ok (i, rest)

/-- A byte decodes to an operation only if it is that operation's command byte (R60, R65). -/
def Obligations.OnlyItsByteDecodes : Prop :=
  ∀ (c : Byte) (i : Instr), decodeCmd c = .ok i ↔ c = encodeCmd i

/-- R65: every CMD value other than 0x01 to 0x06 is refused, whichever way the host writes it. -/
def Obligations.ReservedCommandRefused : Prop :=
  ∀ (s : State) (c : Byte) (rest : List HostAccess),
    (s.host = .write 0 (.byte c) :: rest ∨ s.host = .post c :: rest) → busyOf s.status = false →
    (c.toNat = 0 ∨ 7 ≤ c.toNat) → step s = .refused (.reservedCommand c)

/-! ### The step -/

/-- A CMD write at the head of the host's queue runs the operation it decodes to (R19); that it is one step is log
entry 4. -/
def Obligations.StepRunsDecodedOperation : Prop :=
  ∀ (s : State) (c : Byte) (i : Instr) (rest : List HostAccess),
    s.host = .write 0 (.byte c) :: rest → busyOf s.status = false → decodeCmd c = .ok i →
    step s = exec i { s with host := rest }

/-- Where the host is silent the sequencer goes on, and in IDLE it waits. -/
def Obligations.SilentHostLeavesSequencer : Prop :=
  ∀ s : State, s.host = [] → step s = seqStep s ∧ (s.ph = .idle → step s = .next s)

/-- A CMD write shown phase by phase leaves the operation in its first phase with BUSY = 1, DONE = 0, ERR = 0, and a
transfer has cleared RXN (R20, R22; the codec operations complete in the issuing step). That the issue is a step of
its own is the model's choice (log entries 4, 11). -/
def Obligations.PostedCommandIssues : Prop :=
  ∀ (s : State) (rest : List HostAccess), ready s →
    (∀ f, s.host = .post 0x03#8 :: rest → s.cfg.mode = .spi → s.txf = some f →
      step s = .next { s with host := rest, status := (s.status &&& 0xF0#8) ||| 0x01#8, ph := .spiXfer, rxn := 0#16,
                              rxf := [] }) ∧
    (∀ f n, s.host = .post 0x04#8 :: rest → s.cfg.mode ≠ .spi → s.txf = some f → s.nfr = some n →
      1 ≤ n.toNat → n.toNat ≤ s.cfg.maxFrames →
      step s = .next { s with host := rest, status := (s.status &&& 0xF0#8) ||| 0x01#8, ph := .tplArm, rxn := 0#16,
                              rxf := [] }) ∧
    (s.host = .post 0x05#8 :: rest → tblValidOf s.status = false → thermalLegal s.cfg = true →
      step s = .next { s with host := rest, status := (s.status &&& 0xF0#8) ||| 0x01#8, ph := .tblFill }) ∧
    (∀ r, s.host = .post 0x06#8 :: rest → tblValidOf s.status = true → s.raw = some r →
      tableFit s.cfg s.tbl = true →
      step s = .next { s with host := rest, status := (s.status &&& 0xF0#8) ||| 0x01#8, ph := .invRange })

/-! ### Reset -/

/-- R139: what reset leaves, in every configuration, and that the sequencer then waits in IDLE. -/
def Obligations.ResetLeavesEveryItem : Prop :=
  ∀ c : Cfg,
    let s := State.resetWith c
    s.status = 0x00#8 ∧ s.ph = .idle ∧ s.rxn = 0#16 ∧ s.sArmed = false ∧ s.csTx = .deasserted ∧ s.trace = [] ∧
    s.bud = 0 ∧ s.txf = none ∧ s.nfr = none ∧ s.win = none ∧ s.raw = none ∧ s.wout = none ∧ s.fout = none ∧
    s.temp = none ∧ (∀ k, Memory.read s.rxf k = none) ∧ (∀ a, Memory.read s.txw a = none) ∧
    (∀ a, Memory.read s.rxw a = none) ∧ (∀ i, Memory.read s.tbl i = none) ∧ tblValidOf s.status = false ∧
    s.cfg = c ∧ step s = .next s

/-- R140: reset while an operation is in progress is refused. -/
def Obligations.ResetInProgressRefused : Prop :=
  ∀ (s : State) (rest : List HostAccess), s.host = .reset :: rest → busyOf s.status = true →
    step s = .refused .resetInProgress

/-- The reset input while BUSY = 0 gives every item that R139 and R32 give a value that value, and leaves CFG (R138, R139).
Two clauses are the model's choice: that SL, SR and SM, to which R32 gives no value, become 0 is log entry 6; that the
environment, the host's queue and the record of its reads go on is log entry 23. -/
def Obligations.ResetInputTakesEffect : Prop :=
  ∀ (s : State) (rest : List HostAccess), s.host = .reset :: rest → busyOf s.status = false →
    step s = .next { State.resetWith s.cfg with env := s.env, host := rest, seen := s.seen }

/-! ### Host accesses -/

/-- While BUSY = 0 the host writes the four operand registers, and nothing else changes (R11 to R14, R30). -/
def Obligations.OperandWritesTakeEffect : Prop :=
  ∀ (s : State) (rest : List HostAccess), busyOf s.status = false →
    (∀ f, s.host = .write 2 (.frame f) :: rest → step s = .next { s with host := rest, txf := some f }) ∧
    (∀ n, s.host = .write 3 (.word n) :: rest → step s = .next { s with host := rest, nfr := some n }) ∧
    (∀ w, s.host = .write 4 (.block w) :: rest → step s = .next { s with host := rest, win := some w }) ∧
    (∀ r, s.host = .write 5 (.word r) :: rest → step s = .next { s with host := rest, raw := some r })

/-- While BUSY = 1 the host may read STATUS and nothing else: every other access is refused, CMD writes included
(R31, RF1); STATUS can be read at any time. -/
def Obligations.AccessWhileBusy : Prop :=
  ∀ (s : State) (rest : List HostAccess),
    (s.host = .read 1 :: rest → step s = .next { s with host := rest, seen := s.seen ++ [(1, .byte s.status)] }) ∧
    (busyOf s.status = true →
      (∀ n v, s.host = .write n v :: rest → step s = .refused .operationInProgress) ∧
      (∀ c, s.host = .post c :: rest → step s = .refused .operationInProgress) ∧
      (∀ n, n ≠ 1 → s.host = .read n :: rest → step s = .refused .operationInProgress))

/-- While BUSY = 0 a read delivers the register of that number (R30). -/
def Obligations.ReadsDeliverRegisters : Prop :=
  ∀ (s : State) (n : Nat) (v : RegVal) (rest : List HostAccess), s.host = .read n :: rest → busyOf s.status = false →
    ((n = 2 ∧ s.txf.map .frame = some v) ∨ (n = 3 ∧ s.nfr.map .word = some v) ∨ (n = 4 ∧ s.win.map .block = some v) ∨
     (n = 5 ∧ s.raw.map .word = some v) ∨ (n = 6 ∧ s.wout.map .block = some v) ∨ (n = 7 ∧ s.fout.map .frame = some v) ∨
     (n = 8 ∧ v = .word s.rxn) ∨ (n = 9 ∧ s.temp.map .word = some v) ∨
     (∃ k, n = 16 + k ∧ k < s.cfg.maxFrames ∧ (Memory.read s.rxf k).map .frame = some v)) →
    step s = .next { s with host := rest, seen := s.seen ++ [(n, v)] }

/-- A read of a register that holds no value is refused: a result register by R33 and RF9; an operand register, which
they do not name, by 93 U7, read so in log entry 8 (DEDUCED). -/
def Obligations.ReadsOfNoValueRefused : Prop :=
  ∀ (s : State) (n : Nat) (rest : List HostAccess), s.host = .read n :: rest → busyOf s.status = false →
    ((n = 2 ∧ s.txf = none) ∨ (n = 3 ∧ s.nfr = none) ∨ (n = 4 ∧ s.win = none) ∨ (n = 5 ∧ s.raw = none) ∨
     (n = 6 ∧ s.wout = none) ∨ (n = 7 ∧ s.fout = none) ∨ (n = 9 ∧ s.temp = none) ∨
     (∃ k, n = 16 + k ∧ k < s.cfg.maxFrames ∧ Memory.read s.rxf k = none)) →
    step s = .refused (.noValue n)

/-- A write to a number that is no operand register, a read of CMD, and any access to a reserved number are refused
while BUSY = 0 (R30, R31, RF8). -/
def Obligations.NoSuchAccessRefused : Prop :=
  ∀ (s : State) (n : Nat) (rest : List HostAccess), busyOf s.status = false →
    (∀ v, s.host = .write n v :: rest → (n = 1 ∨ 6 ≤ n) → step s = .refused (.badAccess n)) ∧
    (s.host = .read n :: rest → (n = 0 ∨ (10 ≤ n ∧ n ≤ 15) ∨ 15 + s.cfg.maxFrames < n) →
      step s = .refused (.badAccess n))

/-- A read that is answered has no side effect: only what the host has seen grows (20_memory R43). -/
def Obligations.ReadsHaveNoSideEffect : Prop :=
  ∀ (s t : State) (n : Nat) (rest : List HostAccess), s.host = .read n :: rest → step s = .next t →
    ∃ v, t = { s with host := rest, seen := s.seen ++ [(n, v)] }

/-! ### The codec -/

/-- R71: ENC, whole: its command byte, its result and flags, that nothing else changes, and its two refusals. -/
def Obligations.EncWritesWireBuffer : Prop :=
  decodeCmd 0x01#8 = .ok .enc ∧
  (∀ (s : State) (f : Frame), ready s → s.txf = some f →
    exec .enc s = .next { s with
      wout := some ⟨f.f3, f.f2, f.f1, f.f0, f.f4, 0#8, 0#8, 0#8⟩, status := (s.status &&& 0xF0#8) ||| 0x02#8 }) ∧
  (∀ s : State, ready s → s.txf = none → exec .enc s = .refused (.noOperand 2)) ∧
  (∀ s : State, busyOf s.status = true → exec .enc s = .refused .operationInProgress)

/-- R72: DEC, whole: its command byte, its result and flags, that nothing else changes, and its two refusals. -/
def Obligations.DecWritesFrame : Prop :=
  decodeCmd 0x02#8 = .ok .dec ∧
  (∀ (s : State) (w : Block), ready s → s.win = some w →
    exec .dec s = .next { s with
      fout := some ⟨w.w3, w.w2, w.w1, w.w0, w.w4⟩, status := (s.status &&& 0xF0#8) ||| 0x02#8 }) ∧
  (∀ s : State, ready s → s.win = none → exec .dec s = .refused (.noOperand 4)) ∧
  (∀ s : State, busyOf s.status = true → exec .dec s = .refused .operationInProgress)

/-- R73: decode after encode is the identity, and the five bytes change their positions only. -/
def Obligations.CodecRoundTrip : Prop :=
  ∀ f : Frame, decodeBlock (encodeFrame f) = f ∧ ((blockBytes (encodeFrame f)).take 5).Perm (frameBytes f)

/-- The shape of an encoding, and that encode after decode clears the padding and is the identity exactly on zero
padding (41_frame_codec R74, which the spec marks as its own inference from R71 and R72). -/
def Obligations.EncodingShape : Prop :=
  (∀ f : Frame,
    (blockBytes (encodeFrame f)).take 4 = ((frameBytes f).take 4).reverse ∧
    (blockBytes (encodeFrame f))[4]? = (frameBytes f)[4]? ∧
    (blockBytes (encodeFrame f)).drop 5 = [0#8, 0#8, 0#8]) ∧
  (∀ w : Block, encodeFrame (decodeBlock w) = { w with w5 := 0#8, w6 := 0#8, w7 := 0#8 }) ∧
  (∀ w : Block, encodeFrame (decodeBlock w) = w ↔ w.w5 = 0#8 ∧ w.w6 = 0#8 ∧ w.w7 = 0#8)

/-- R56: received padding is never read. -/
def Obligations.PaddingIgnored : Prop :=
  ∀ v w : Block, (blockBytes v).take 5 = (blockBytes w).take 5 → decodeBlock v = decodeBlock w

/-! ### SPIX -/

/-- SPIX when the exchange completes: the whole next state (R77). -/
def Obligations.SpixSuccess : Prop :=
  ∀ (s : State) (f : Frame) (r : Block), ready s → s.cfg.mode = .spi → s.txf = some f → s.env.nextXfer = .ok r →
    exec .spix s = .next { s with
      txw := Memory.writeBlock s.txw 0 (encodeFrame f), rxw := Memory.writeBlock s.rxw 0 r,
      rxf := [(0, decodeBlock r)], rxn := 1#16, status := (s.status &&& 0xF0#8) ||| 0x02#8,
      trace := s.trace ++ [.mXfer (encodeFrame f) .full (.ok (some r))], env := s.env.afterXfer }

/-- SPIX when the exchange fails: `M_TIMEOUT` gives Timeout, any other failure BusBusy (R79, R80), no result (R82), and
each error arises in no other way. -/
def Obligations.SpixErrors : Prop :=
  ∀ (s : State) (f : Frame), ready s → s.cfg.mode = .spi → s.txf = some f →
    (s.env.nextXfer = .timeout →
      exec .spix s = .next { s with
        txw := Memory.writeBlock s.txw 0 (encodeFrame f), rxw := [], rxf := [], rxn := 0#16,
        status := (s.status &&& 0xF0#8) ||| 0x06#8,
        trace := s.trace ++ [.mXfer (encodeFrame f) .full .timeout], env := s.env.afterXfer }) ∧
    (s.env.nextXfer = .fail →
      exec .spix s = .next { s with
        txw := Memory.writeBlock s.txw 0 (encodeFrame f), rxw := [], rxf := [], rxn := 0#16,
        status := (s.status &&& 0xF0#8) ||| 0x0A#8,
        trace := s.trace ++ [.mXfer (encodeFrame f) .full .fail], env := s.env.afterXfer }) ∧
    (∀ t, exec .spix s = .next t →
      (errOf t.status = 1#2 ↔ s.env.nextXfer = .timeout) ∧ (errOf t.status = 2#2 ↔ s.env.nextXfer = .fail))

/-- Every SPIX that completes performs exactly one event, the full-duplex exchange of the 8 bytes of TXW, whatever its
outcome, and what it reports is what arrived in that exchange (R78). -/
def Obligations.SpixOneExchange : Prop :=
  ∀ s t : State, exec .spix s = .next t →
    ∃ f a, s.txf = some f ∧ t.trace = s.trace ++ [.mXfer (encodeFrame f) .full a] ∧
      Memory.readBlock t.txw 0 = some (encodeFrame f) ∧
      ∀ r, a = .ok (some r) → t.rxn = 1#16 ∧ Memory.read t.rxf 0 = some (decodeBlock r)

/-- SPIX and TPLX are refused where the configuration has no such operation, and on operands without a value or an
illegal NFR (RF3, RF4, RF7). -/
def Obligations.TransferRefusals : Prop :=
  ∀ s : State, ready s →
    (s.cfg.mode ≠ .spi → exec .spix s = .refused .wrongMode) ∧
    (s.cfg.mode = .spi → s.txf = none → exec .spix s = .refused (.noOperand 2)) ∧
    (s.cfg.mode = .spi → exec .tplx s = .refused .wrongMode) ∧
    (s.cfg.mode ≠ .spi → s.txf = none → exec .tplx s = .refused (.noOperand 2)) ∧
    (∀ f, s.cfg.mode ≠ .spi → s.txf = some f → s.nfr = none → exec .tplx s = .refused (.noOperand 3)) ∧
    (∀ f n, s.cfg.mode ≠ .spi → s.txf = some f → s.nfr = some n → (n.toNat = 0 ∨ s.cfg.maxFrames < n.toNat) →
      exec .tplx s = .refused (.badFrameCount n.toNat))

/-! ### TPLX -/

/-- TPLX when the arm fails: BusBusy at once, no abort, no other event (R86). -/
def Obligations.TplxArmFailure : Prop :=
  ∀ (s : State) (f : Frame) (n : Word16), ready s → s.cfg.mode ≠ .spi → s.txf = some f → s.nfr = some n →
    1 ≤ n.toNat → n.toNat ≤ s.cfg.maxFrames → s.env.armAt 0 = .armFail →
    exec .tplx s = .next { s with
      rxw := [], rxf := [], rxn := 0#16, status := (s.status &&& 0xF0#8) ||| 0x0A#8,
      trace := s.trace ++ [.sArm (8 * n.toNat) .armFail], env := s.env.afterArm }

/-- TPLX when the transmit fails: the framing is completed, the armed transaction is aborted, then the error is raised,
Timeout for `M_TIMEOUT` and BusBusy for `M_FAIL` (R90, R91). -/
def Obligations.TplxTransmitFailure : Prop :=
  ∀ (s : State) (f : Frame) (n : Word16), ready s → s.cfg.mode ≠ .spi → s.txf = some f → s.nfr = some n →
    1 ≤ n.toNat → n.toNat ≤ s.cfg.maxFrames → s.env.armAt 0 = .armOk →
    (s.env.afterArm.nextXfer = .timeout →
      exec .tplx s = .next { s with
        txw := Memory.writeBlock s.txw 0 (encodeFrame f), rxw := [], rxf := [], rxn := 0#16,
        status := (s.status &&& 0xF0#8) ||| 0x06#8, sArmed := false,
        csTx := if s.cfg.mode = .tplSwcs then .deasserted else s.csTx,
        trace := s.trace ++ [.sArm (8 * n.toNat) .armOk] ++ framedTransmit s.cfg (encodeFrame f) .timeout ++ [.sAbort],
        env := s.env.afterArm.afterXfer }) ∧
    (s.env.afterArm.nextXfer = .fail →
      exec .tplx s = .next { s with
        txw := Memory.writeBlock s.txw 0 (encodeFrame f), rxw := [], rxf := [], rxn := 0#16,
        status := (s.status &&& 0xF0#8) ||| 0x0A#8, sArmed := false,
        csTx := if s.cfg.mode = .tplSwcs then .deasserted else s.csTx,
        trace := s.trace ++ [.sArm (8 * n.toNat) .armOk] ++ framedTransmit s.cfg (encodeFrame f) .fail ++ [.sAbort],
        env := s.env.afterArm.afterXfer })

/-- TPLX when none of the BUDGET0 polls answers idle: exactly BUDGET0 polls, one abort, Timeout (R92, R93). -/
def Obligations.TplxPollTimeout : Prop :=
  ∀ (s : State) (f : Frame) (n : Word16) (r : Block), ready s → s.cfg.mode ≠ .spi → s.txf = some f → s.nfr = some n →
    1 ≤ n.toNat → n.toNat ≤ s.cfg.maxFrames → s.env.armAt 0 = .armOk → s.env.afterArm.nextXfer = .ok r →
    (∀ i, i < budget0 s.cfg → s.env.afterArm.afterXfer.pollAt i = .busy) →
    exec .tplx s = .next { s with
      txw := Memory.writeBlock s.txw 0 (encodeFrame f), rxw := [], rxf := [], rxn := 0#16, bud := 0,
      status := (s.status &&& 0xF0#8) ||| 0x06#8, sArmed := false,
      csTx := if s.cfg.mode = .tplSwcs then .deasserted else s.csTx,
      trace := s.trace ++ [.sArm (8 * n.toNat) .armOk] ++ framedTransmit s.cfg (encodeFrame f) (.ok none)
        ++ List.replicate (budget0 s.cfg) (.sPoll .busy) ++ [.sAbort],
      env := s.env.afterArm.afterXfer.afterPolls (budget0 s.cfg) }

/-- TPLX when poll number `j` (from 0), within the budget, is the first to answer idle: NFR frames decoded, each from
its own block, in arrival order (R92, R94). -/
def Obligations.TplxSuccess : Prop :=
  ∀ (s : State) (f : Frame) (n : Word16) (r : Block) (j : Nat), ready s → s.cfg.mode ≠ .spi → s.txf = some f →
    s.nfr = some n → 1 ≤ n.toNat → n.toNat ≤ s.cfg.maxFrames → s.env.armAt 0 = .armOk →
    s.env.afterArm.nextXfer = .ok r → j < budget0 s.cfg →
    (∀ i, i < j → s.env.afterArm.afterXfer.pollAt i = .busy) → s.env.afterArm.afterXfer.pollAt j = .idle →
    exec .tplx s = .next { s with
      txw := Memory.writeBlock s.txw 0 (encodeFrame f),
      rxw := Memory.writeList [] 0 ((s.env.afterArm.afterXfer.afterPolls (j + 1)).sData n.toNat),
      rxf := (List.range n.toNat).map
        (fun k => (k, decodeBlock ((s.env.afterArm.afterXfer.afterPolls (j + 1)).blockAt k))),
      rxn := n, bud := budget0 s.cfg - j, status := (s.status &&& 0xF0#8) ||| 0x02#8, sArmed := false,
      csTx := if s.cfg.mode = .tplSwcs then .deasserted else s.csTx,
      trace := s.trace ++ [.sArm (8 * n.toNat) .armOk] ++ framedTransmit s.cfg (encodeFrame f) (.ok none)
        ++ List.replicate j (.sPoll .busy) ++ [.sPoll .idle],
      env := (s.env.afterArm.afterXfer.afterPolls (j + 1)).afterData n.toNat }

/-- In every TPLX that completes, the first event is `S_ARM(8 * NFR)`, and a transmit happens only if it answered
`ARM_OK` (20_memory R50). -/
def Obligations.ArmPrecedesTransmit : Prop :=
  ∀ s t : State, exec .tplx s = .next t →
    ∃ n a ev, s.nfr = some n ∧ t.trace = s.trace ++ .sArm (8 * n.toNat) a :: ev ∧
      (∀ e, e ∈ ev → isArm e = false) ∧ ((∃ e, e ∈ ev ∧ isXfer e = true) → a = .armOk)

/-- In every TPLX that completes, `S_ABORT` occurs exactly once if the operation failed after a successful arm, and
never otherwise; it is then the last event, and no poll before it has answered idle, so the transaction is still armed.
Afterwards neither engine is left armed or selected (R96). -/
def Obligations.AbortExactlyOnFailureAfterArm : Prop :=
  ∀ s t : State, exec .tplx s = .next t →
    ∃ n a ev, s.nfr = some n ∧ t.trace = s.trace ++ .sArm (8 * n.toNat) a :: ev ∧
      (ev.filter isAbort).length = (if a = .armOk ∧ errOf t.status ≠ 0#2 then 1 else 0) ∧
      (a = .armOk ∧ errOf t.status ≠ 0#2 → ev.getLast? = some .sAbort ∧ .sPoll .idle ∉ ev) ∧
      t.sArmed = (if a = .armOk then false else s.sArmed) ∧ (s.csTx = .deasserted → t.csTx = .deasserted)

/-- Every TPLX that completes executes at most `COMM_TIMEOUT_MS * (CORE_CLK_HZ div 1000)` polls, and exactly that many,
all busy, when the poll loop was reached and the slave never reported idle (R153). -/
def Obligations.PollsWithinBudget : Prop :=
  ∀ s t : State, exec .tplx s = .next t →
    ∃ f ev, s.txf = some f ∧ t.trace = s.trace ++ ev ∧
      (ev.filter isPoll).length ≤ s.cfg.commTimeoutMs * (s.cfg.coreClkHz / 1000) ∧
      (.mXfer (encodeFrame f) .txOnly (.ok none) ∈ ev → .sPoll .idle ∉ ev →
        ev.filter isPoll = List.replicate (s.cfg.commTimeoutMs * (s.cfg.coreClkHz / 1000)) (.sPoll .busy))

/-- In every TPLX that completes, the events between the arm and the first poll or abort are exactly the framed
transmit: in TPL_SWCS assert, transmit, settle delay, deassert; in TPL_HWCS the transmit alone (R88). -/
def Obligations.ChipSelectFraming : Prop :=
  ∀ s t : State, exec .tplx s = .next t →
    ∃ n f ev, s.nfr = some n ∧ s.txf = some f ∧
      (t.trace = s.trace ++ [.sArm (8 * n.toNat) .armFail] ∨
        ∃ a, t.trace = s.trace ++ .sArm (8 * n.toNat) .armOk ::
            ((if s.cfg.mode = .tplSwcs
                then [.csAssert, .mXfer (encodeFrame f) .txOnly a, .delayUs s.cfg.settleUs, .csDeassert]
                else [.mXfer (encodeFrame f) .txOnly a]) ++ ev) ∧
          ∀ e, e ∈ ev → isPoll e = true ∨ isAbort e = true)

/-! ### The table -/

/-- TBLD in a legal configuration fills TBL from the beta model over exact reals and sets TBL_VALID; nothing else changes
(R100 to R102). Each entry is the rounded code for the value `e` of `numerics.exp` at its argument, whichever function
that is (R103). The 273.15 is log entry 14, the form of the real constants and of `numerics.exp` log entry 5. -/
def Obligations.TbldFillsTable : Prop :=
  ∀ s : State, ready s → tblValidOf s.status = false → CfgLegal s.cfg →
    ∃ tbl, exec .tbld s = .next { s with tbl := tbl, status := (s.status &&& 0xD0#8) ||| 0x22#8 } ∧
      (∀ i, nt s.cfg ≤ i → Memory.read tbl i = Memory.read s.tbl i) ∧
      ∀ i, i < nt s.cfg →
        ∃ e, ExpValue s.cfg (s.cfg.beta.value *
            (1 / (((s.cfg.tMin + (i : Int) : Int) : ℝ) + 27315 / 100) - 1 / (s.cfg.tRef.value + 27315 / 100))) e ∧
          Memory.read tbl i = some (BitVec.ofInt 16 (roundHalfAway
            (s.cfg.rRef.value * e / (s.cfg.rRef.value * e + s.cfg.rPu.value) * s.cfg.codeScale.value)))

/-- R105 (which the spec marks as its own inference): under the constraints on the real parameters, and what is assumed
of `exp` alone, the table never rises. -/
def Obligations.TableNeverRises : Prop :=
  ∀ (c : Cfg) (i : Nat), ThermalConstraints c → i + 1 < nt c → exactEntry c (i + 1) ≤ exactEntry c i

/-- R107 (the spec's own inference): every entry is at least 0 and at most `round_half_away(CODE_SCALE)`, which is at most
65535, so that the write never truncates. -/
def Obligations.EntriesFitTheirWidth : Prop :=
  ∀ (c : Cfg) (i : Nat), ThermalConstraints c → i < nt c →
    0 ≤ exactEntry c i ∧ exactEntry c i ≤ roundHalfAway c.codeScale.value ∧ roundHalfAway c.codeScale.value ≤ 65535 ∧
    (TableExact c → ((entryCode c i).toNat : Int) = exactEntry c i)

/-- The entry at `T_REF`, when it is an integer temperature of the table, does not depend on BETA or on `exp`
(R100, corner cases). -/
def Obligations.EntryAtReferenceTemperature : Prop :=
  ∀ (c : Cfg) (i : Nat), ThermalConstraints c → i < nt c → ((tempAt c i : Int) : ℝ) = c.tRef.value →
    exactEntry c i = roundHalfAway (c.codeScale.value * c.rRef.value / (c.rRef.value + c.rPu.value))

/-- The rounding of ties: the nearest integer, a tie going away from zero (R7, R102), and the same for a rational number
as for the real number it is. -/
def Obligations.RoundingToNearest : Prop :=
  (∀ x : ℝ, |((roundHalfAway x : Int) : ℝ) - x| ≤ 1 / 2) ∧
  (∀ k : Int, 0 ≤ k → roundHalfAway ((k : ℝ) + 1 / 2) = k + 1) ∧
  (∀ k : Int, 0 ≤ k → roundHalfAway (-((k : ℝ) + 1 / 2)) = -(k + 1)) ∧
  (∀ q : Rat, roundHalfAway q = roundHalfAway (q : ℝ))

/-- TBLD a second time or outside the parameters' constraints, TINV before TBLD, without RAW or on an unfit table, are
refused (RF5, RF6, RF7; 93 U8, U9). -/
def Obligations.TableRefusals : Prop :=
  ∀ s : State, ready s →
    (tblValidOf s.status = true → exec .tbld s = .refused .tableAlreadyBuilt) ∧
    (tblValidOf s.status = false → thermalLegal s.cfg = false → exec .tbld s = .refused .badParameters) ∧
    (tblValidOf s.status = false → exec .tinv s = .refused .tableNotBuilt) ∧
    (tblValidOf s.status = true → s.raw = none → exec .tinv s = .refused (.noOperand 5)) ∧
    (∀ r, tblValidOf s.status = true → s.raw = some r → tableFit s.cfg s.tbl = false →
      exec .tinv s = .refused .tableUnfit)

/-! ### The inverter -/

/-- R109: below the last entry, TEMP is `10 * T_MAX` and INRANGE is 0; nothing else changes. -/
def Obligations.TinvBelowTable : Prop :=
  ∀ (s : State) (r : Word16), ready s → tblValidOf s.status = true → s.raw = some r → tableFit s.cfg s.tbl = true →
    r.toNat < entryAt s (nt s.cfg - 1) →
    exec .tinv s = .next { s with
      temp := some (BitVec.ofInt 16 (10 * s.cfg.tMax)), status := (s.status &&& 0xE0#8) ||| 0x02#8 }

/-- R110: above the first entry, TEMP is `10 * T_MIN` and INRANGE is 0; nothing else changes. -/
def Obligations.TinvAboveTable : Prop :=
  ∀ (s : State) (r : Word16), ready s → tblValidOf s.status = true → s.raw = some r → tableFit s.cfg s.tbl = true →
    entryAt s 0 < r.toNat →
    exec .tinv s = .next { s with
      temp := some (BitVec.ofInt 16 (10 * s.cfg.tMin)), status := (s.status &&& 0xE0#8) ||| 0x02#8 }

/-- In range: the bracket `l` (the only index that meets these conditions) and the interpolated reading; only TEMP,
STATUS and the search registers change (R111 to R115). -/
def Obligations.TinvInRange : Prop :=
  ∀ (s : State) (r : Word16), ready s → tblValidOf s.status = true → s.raw = some r → tableFit s.cfg s.tbl = true →
    entryAt s (nt s.cfg - 1) ≤ r.toNat → r.toNat ≤ entryAt s 0 →
    ∃ l m, l + 1 < nt s.cfg ∧ entryAt s (l + 1) ≤ r.toNat ∧ r.toNat ≤ entryAt s l ∧ (0 < l → r.toNat < entryAt s l) ∧
      exec .tinv s = .next { s with
        sl := l, sr := l + 1, sm := m,
        temp := some (BitVec.ofInt 16 (10 * (s.cfg.tMin + (l : Int)) +
          (if ((entryAt s l : Int) - (entryAt s (l + 1) : Int)).tdiv 10 = 0 then 0
           else ((entryAt s l : Int) - (r.toNat : Int)).tdiv
            (((entryAt s l : Int) - (entryAt s (l + 1) : Int)).tdiv 10)))),
        status := (s.status &&& 0xE0#8) ||| 0x12#8 }

/-- R114: in a bracket narrower than 10 codes, the zero-width one included, the fraction is 0 and nothing is divided;
otherwise it is the nested division of R113. -/
def Obligations.NarrowBracketFractionZero : Prop :=
  (∀ left right raw : Int, right ≤ left → left - right < 10 → fraction left right raw = 0) ∧
  (∀ left right raw : Int, 10 ≤ left - right →
    fraction left right raw = (left - raw).tdiv ((left - right).tdiv 10))

/-- R116 (the spec's own inference): every reading lies between `10 * T_MIN` and `10 * T_MAX + 9`, read as a signed number. -/
def Obligations.ReadingWithinBounds : Prop :=
  ∀ s t : State, -273 ≤ s.cfg.tMin → s.cfg.tMax ≤ 3274 → exec .tinv s = .next t →
    ∃ v, t.temp = some v ∧ 10 * s.cfg.tMin ≤ v.toInt ∧ v.toInt ≤ 10 * s.cfg.tMax + 9

/-- R117 (the spec's own inference): inverting a table entry, for a strictly decreasing table. -/
def Obligations.TableEntryRoundTrip : Prop :=
  ∀ (s : State) (r : Word16) (i : Nat), ready s → tblValidOf s.status = true → s.raw = some r →
    tableFit s.cfg s.tbl = true → (∀ k, k + 1 < nt s.cfg → entryAt s (k + 1) < entryAt s k) → i < nt s.cfg →
    r.toNat = entryAt s i →
    ∃ t, exec .tinv s = .next t ∧ inRangeOf t.status = true ∧
      (i = 0 → t.temp = some (BitVec.ofInt 16 (10 * s.cfg.tMin))) ∧
      (∀ w, 0 < i → w = entryAt s (i - 1) - entryAt s i → w < 10 →
        t.temp = some (BitVec.ofInt 16 (10 * (s.cfg.tMin + (i : Int) - 1)))) ∧
      (∀ w, 0 < i → w = entryAt s (i - 1) - entryAt s i → 10 ≤ w →
        t.temp = some (BitVec.ofInt 16 (10 * (s.cfg.tMin + (i : Int) - 1) + ((w / (w / 10) : Nat) : Int))) ∧
        10 ≤ w / (w / 10) ∧ w / (w / 10) ≤ 19)

/-- R112 (the spec's own inference): each turn of the bisection keeps the bracket around RAW, probes an index strictly
between its ends, never the first or the last entry, and narrows it; adjacent ends end the search. That a step in
INV_BISECT is one turn of the loop is the model's choice (log entry 11). -/
def Obligations.BisectionKeepsBracket : Prop :=
  ∀ (s : State) (r : Word16), s.ph = .invBisect → s.raw = some r → tableFit s.cfg s.tbl = true →
    s.sl < s.sr → s.sr < nt s.cfg → r.toNat ≤ entryAt s s.sl → entryAt s s.sr ≤ r.toNat →
    (0 < s.sl → r.toNat < entryAt s s.sl) →
    ∃ t, seqStep s = .next t ∧ r.toNat ≤ entryAt t t.sl ∧ entryAt t t.sr ≤ r.toNat ∧ t.sl < t.sr ∧
      (0 < t.sl → r.toNat < entryAt t t.sl) ∧
      (s.sl + 1 = s.sr → t = { s with ph := .invInterp }) ∧
      (s.sl + 1 ≠ s.sr → t.ph = .invBisect ∧ s.sl < t.sm ∧ t.sm < s.sr ∧ 1 ≤ t.sm ∧ t.sm + 2 ≤ nt s.cfg ∧
        t.sr - t.sl < s.sr - s.sl)

/-- R112 (the spec's own inference), R152: from the whole table as the bracket the search ends after at most
`ceil(log2(NT - 1))` probes. That a turn of the loop is a step is the model's choice (log entry 11). -/
def Obligations.BisectionIsLogarithmic : Prop :=
  ∀ (s : State) (raw : Nat), s.ph = .invBisect → s.sl = 0 → s.sr = nt s.cfg - 1 → 2 ≤ nt s.cfg →
    (runPhase .invBisect (invBisect raw) (Nat.clog 2 (nt s.cfg - 1) + 1) s).ph = .invInterp

/-! ### The whole machine -/

/-- R137: no operation but SPIX and TPLX ends with an error. -/
def Obligations.OnlyTransfersFail : Prop :=
  ∀ (i : Instr) (s t : State), i ≠ .spix → i ≠ .tplx → exec i s = .next t → errOf t.status = 0#2

/-- R122 (the spec's own inference): after every operation, successful or not, the transceiver is idle with results: PH = IDLE, BUSY = 0,
DONE = 1, ERR one of its three codes, and neither engine is left armed or selected if it was not before. -/
def Obligations.OperationEndsIdle : Prop :=
  ∀ (i : Instr) (s t : State), exec i s = .next t → s.sArmed = false → s.csTx = .deasserted →
    t.ph = .idle ∧ busyOf t.status = false ∧ doneOf t.status = true ∧ errOf t.status ≠ 3#2 ∧
    t.sArmed = false ∧ t.csTx = .deasserted

/-- No operation writes an operand register, the configuration or what belongs to the host (R11 to R14, R5). -/
def Obligations.OperandsUnchanged : Prop :=
  ∀ (i : Instr) (s t : State), exec i s = .next t →
    t.txf = s.txf ∧ t.nfr = s.nfr ∧ t.win = s.win ∧ t.raw = s.raw ∧ t.cfg = s.cfg ∧ t.host = s.host ∧ t.seen = s.seen

/-- R136 (the spec's own inference): an error leaves everything but STATUS.ERR, BUSY, DONE, RXN, RXF and the transport's own buffers, budget and
trace; no result is left. -/
def Obligations.ErrorLeavesTheRest : Prop :=
  ∀ (i : Instr) (s t : State), exec i s = .next t → errOf t.status ≠ 0#2 →
    t.wout = s.wout ∧ t.fout = s.fout ∧ t.temp = s.temp ∧ t.tbl = s.tbl ∧ t.txf = s.txf ∧ t.nfr = s.nfr ∧
    t.win = s.win ∧ t.raw = s.raw ∧ t.cfg = s.cfg ∧ inRangeOf t.status = inRangeOf s.status ∧
    tblValidOf t.status = tblValidOf s.status ∧ t.rxn = 0#16 ∧ (∀ k, Memory.read t.rxf k = none) ∧
    (∀ a, Memory.read t.rxw a = none)

/-- The transport and the temperature components share no state: transfers leave TEMP, TBL, INRANGE and TBL_VALID;
TBLD and TINV leave RXF, RXN, the buffers, the engines, the trace and the environment (00_scope R2). -/
def Obligations.SubsystemsIndependent : Prop :=
  ∀ (i : Instr) (s t : State), exec i s = .next t →
    (i = .spix ∨ i = .tplx →
      t.temp = s.temp ∧ t.tbl = s.tbl ∧ inRangeOf t.status = inRangeOf s.status ∧
      tblValidOf t.status = tblValidOf s.status ∧ t.sl = s.sl ∧ t.sr = s.sr ∧ t.sm = s.sm) ∧
    (i = .tbld ∨ i = .tinv →
      t.rxf = s.rxf ∧ t.rxn = s.rxn ∧ t.txw = s.txw ∧ t.rxw = s.rxw ∧ t.bud = s.bud ∧ t.sArmed = s.sArmed ∧
      t.csTx = s.csTx ∧ t.trace = s.trace ∧ t.env = s.env ∧ t.wout = s.wout ∧ t.fout = s.fout)

/-- The invariant holds after reset, in every legal configuration. -/
def Obligations.InvariantAtReset : Prop := ∀ c : Cfg, CfgLegal c → Inv (State.resetWith c)

/-- Every step keeps the invariant. What a step is, and so the clauses of Inv on CS_TX and on the bracket between two
steps, is the model's choice (log entry 11). -/
def Obligations.EveryStepKeepsInvariant : Prop := ∀ s t : State, Inv s → step s = .next t → Inv t

/-- From every state with the invariant in which an operation is in progress and the host is silent, the step answers a
next state: nothing gets stuck (R152). What a step is, is the model's choice (log entry 11). -/
def Obligations.SequencerNeverStuck : Prop :=
  ∀ s : State, Inv s → busyOf s.status = true → s.host = [] → ∃ t, step s = .next t

/-- The two views of an operation agree: its issuing step and then its phases, one at a time, reach the state that `exec`
gives, within a bound on the phases (R22, R84, R152). What counts as a phase's step is the model's choice (log entry 11). -/
def Obligations.PhasesReachWholeOperation : Prop :=
  ∀ (i : Instr) (s t : State), exec i s = .next t →
    ∃ s1, issueOnly i s = .next s1 ∧ ∃ k, k ≤ budget0 s.cfg + nt s.cfg + 4 ∧ seqRun k s1 = .next t

/-- No step changes the configuration (R5, 70_reset_and_hazards R143). -/
def Obligations.ConfigurationConstant : Prop := ∀ s t : State, step s = .next t → t.cfg = s.cfg

/-- Once built the table is immutable: no step but a reset changes it or clears TBL_VALID (20_memory R52,
44_temp_table R106). -/
def Obligations.TableImmutable : Prop :=
  ∀ s t : State, Inv s → tblValidOf s.status = true → s.host.head? ≠ some .reset → step s = .next t →
    t.tbl = s.tbl ∧ tblValidOf t.status = true

/-- Every step but a reset only appends to the trace (10_state R29, 20_memory R49). -/
def Obligations.TraceOnlyGrows : Prop :=
  ∀ s t : State, s.host.head? ≠ some .reset → step s = .next t → ∃ ev, t.trace = s.trace ++ ev

/-- R10: an operation reads nothing from the items left by previous operations in BUD, SL, SR, SM, TXW and RXW: from two
states that differ only there it gives the same refusal, or next states that differ only there. -/
def Obligations.NoHiddenMemory : Prop :=
  ∀ (i : Instr) (s s' : State), hideScratch s = hideScratch s' →
    (∀ r, exec i s = .refused r → exec i s' = .refused r) ∧
    (∀ t, exec i s = .next t → ∃ t', exec i s' = .next t' ∧ hideScratch t = hideScratch t')
end

