-- ==== Sys2Proof/Laws/Flags.lean ====
section
/-! SUPPORT. The fields of STATUS after each of its writes (10_state R20). -/

namespace Sys2Proof.Machine

theorem busyOf_issued : ∀ w : Byte, busyOf (issuedStatus w) = true := by decide
theorem doneOf_issued : ∀ w : Byte, doneOf (issuedStatus w) = false := by decide
theorem errOf_issued : ∀ w : Byte, errOf (issuedStatus w) = 0#2 := by decide
theorem inRangeOf_issued : ∀ w : Byte, inRangeOf (issuedStatus w) = inRangeOf w := by decide
theorem tblValidOf_issued : ∀ w : Byte, tblValidOf (issuedStatus w) = tblValidOf w := by decide
theorem reservedOf_issued : ∀ w : Byte, reservedOf (issuedStatus w) = reservedOf w := by decide

theorem busyOf_completed (e : Code) : ∀ w : Byte, busyOf (completedStatus e w) = false := by
  cases e <;> decide
theorem doneOf_completed (e : Code) : ∀ w : Byte, doneOf (completedStatus e w) = true := by
  cases e <;> decide
theorem errOf_completed (e : Code) : ∀ w : Byte, errOf (completedStatus e w) = codeBits e := by
  cases e <;> decide
theorem inRangeOf_completed (e : Code) : ∀ w : Byte, inRangeOf (completedStatus e w) = inRangeOf w := by
  cases e <;> decide
theorem tblValidOf_completed (e : Code) : ∀ w : Byte, tblValidOf (completedStatus e w) = tblValidOf w := by
  cases e <;> decide
theorem reservedOf_completed (e : Code) : ∀ w : Byte, reservedOf (completedStatus e w) = reservedOf w := by
  cases e <;> decide

theorem inRangeOf_putInRange (b : Bool) : ∀ w : Byte, inRangeOf (putInRange b w) = b := by
  cases b <;> decide
theorem tblValidOf_putInRange (b : Bool) : ∀ w : Byte, tblValidOf (putInRange b w) = tblValidOf w := by
  cases b <;> decide
theorem reservedOf_putInRange (b : Bool) : ∀ w : Byte, reservedOf (putInRange b w) = reservedOf w := by
  cases b <;> decide
theorem tblValidOf_putTblValid (b : Bool) : ∀ w : Byte, tblValidOf (putTblValid b w) = b := by
  cases b <;> decide
theorem inRangeOf_putTblValid (b : Bool) : ∀ w : Byte, inRangeOf (putTblValid b w) = inRangeOf w := by
  cases b <;> decide
theorem reservedOf_putTblValid (b : Bool) : ∀ w : Byte, reservedOf (putTblValid b w) = reservedOf w := by
  cases b <;> decide

/-- Completion right after issue, as bits: BUSY 0, DONE 1, ERR the code, the rest kept. -/
theorem completed_issued (e : Code) :
    ∀ w : Byte, completedStatus e (issuedStatus w) = (w &&& 0xF0#8) ||| 0x02#8 ||| ((codeBits e).zeroExtend 8 <<< 2) := by
  cases e <;> decide

/-- Completion without an issue before it, as bits. -/
theorem completed_bits (e : Code) :
    ∀ w : Byte, completedStatus e w = (w &&& 0xF0#8) ||| 0x02#8 ||| ((codeBits e).zeroExtend 8 <<< 2) := by
  cases e <;> decide

end Sys2Proof.Machine
end

