-- ==== Sys2Proof/Laws/Memory.lean ====
section
/-! SUPPORT. The laws of spaces: reading after writing, and that every operation keeps the canonical form. -/

namespace Sys2Proof.Machine

variable {α : Type}

@[simp] theorem Memory.read_nil (a : Nat) : Memory.read ([] : Memory α) a = none := rfl

theorem Memory.read_write_same (m : Memory α) (a : Nat) (v : α) : (m.write a v).read a = some v := by
  induction m with
  | nil => simp [Memory.write, Memory.read]
  | cons p rest ih =>
    obtain ⟨b, w⟩ := p
    unfold Memory.write
    split
    · simp [Memory.read]
    · split
      · simp [Memory.read]
      · rename_i h
        simp [Memory.read, Ne.symm h, ih]

theorem Memory.read_write_ne (m : Memory α) {a b : Nat} (v : α) (h : b ≠ a) : (m.write a v).read b = m.read b := by
  induction m with
  | nil => simp [Memory.write, Memory.read, Ne.symm h]
  | cons p rest ih =>
    obtain ⟨c, w⟩ := p
    unfold Memory.write
    split
    · simp [Memory.read, Ne.symm h]
    · split
      · subst_vars
        simp [Memory.read, Ne.symm h]
      · simp [Memory.read, ih]

theorem Memory.read_write (m : Memory α) (a b : Nat) (v : α) :
    (m.write a v).read b = if b = a then some v else m.read b := by
  split
  · subst_vars; exact m.read_write_same _ v
  · exact m.read_write_ne v ‹_›

theorem Memory.mem_write {m : Memory α} {a : Nat} {v : α} {p : Nat × α} (h : p ∈ m.write a v) :
    p = (a, v) ∨ p ∈ m := by
  induction m with
  | nil => simpa [Memory.write] using h
  | cons q rest ih =>
    obtain ⟨c, w⟩ := q
    unfold Memory.write at h
    split at h
    · simpa using h
    · split at h
      · rcases List.mem_cons.1 h with h | h
        · exact .inl h
        · exact .inr (List.mem_cons_of_mem _ h)
      · rcases List.mem_cons.1 h with h | h
        · exact .inr (h ▸ List.mem_cons_self ..)
        · exact (ih h).imp_right (List.mem_cons_of_mem _)

theorem Memory.wf_write {m : Memory α} (h : m.wf) (a : Nat) (v : α) : (m.write a v).wf := by
  induction m with
  | nil => simp [Memory.write, Memory.wf]
  | cons q rest ih =>
    obtain ⟨c, w⟩ := q
    obtain ⟨h1, h2⟩ := List.pairwise_cons.1 h
    unfold Memory.write
    split
    · rename_i hac
      refine List.pairwise_cons.2 ⟨fun p hp => ?_, h⟩
      rcases List.mem_cons.1 hp with rfl | hp
      · exact hac
      · exact lt_trans hac (h1 p hp)
    · split
      · subst_vars
        exact List.pairwise_cons.2 ⟨h1, h2⟩
      · refine List.pairwise_cons.2 ⟨fun p hp => ?_, ih h2⟩
        rcases Memory.mem_write hp with rfl | hp
        · show c < a
          omega
        · exact h1 p hp

theorem Memory.erase_sublist (m : Memory α) (a : Nat) : (m.erase a).Sublist m := by
  induction m with
  | nil => exact List.Sublist.refl _
  | cons q rest ih =>
    obtain ⟨c, w⟩ := q
    unfold Memory.erase
    split
    · exact List.sublist_cons_self _ _
    · exact ih.cons_cons _

theorem Memory.wf_erase {m : Memory α} (h : m.wf) (a : Nat) : (m.erase a).wf :=
  List.Pairwise.sublist (m.erase_sublist a) h

theorem Memory.wf_put {m : Memory α} (h : m.wf) (a : Nat) (v : Option α) : (m.put a v).wf := by
  cases v with
  | none => exact Memory.wf_erase h a
  | some x => exact Memory.wf_write h a x

theorem Memory.wf_writeList {m : Memory α} (h : m.wf) (a : Nat) (l : List α) : (m.writeList a l).wf := by
  induction l generalizing m a with
  | nil => exact h
  | cons v rest ih => exact ih (Memory.wf_write h a v) (a + 1)

theorem Memory.wf_writeBlock {m : Memory Byte} (h : m.wf) (a : Nat) (w : Block) : (m.writeBlock a w).wf :=
  Memory.wf_writeList h a _

theorem Memory.wf_below {m : Memory α} (h : m.wf) (n : Nat) : (m.below n).wf :=
  List.Pairwise.filter _ h

@[simp] theorem Memory.below_zero (m : Memory α) : m.below 0 = [] := by simp [Memory.below]

theorem Memory.read_writeList (m : Memory α) (a b : Nat) (l : List α) :
    (m.writeList a l).read b = if a ≤ b ∧ b < a + l.length then l[b - a]? else m.read b := by
  induction l generalizing m a with
  | nil =>
    have : ¬(a ≤ b ∧ b < a) := by omega
    simp [Memory.writeList, this]
  | cons v rest ih =>
    rw [Memory.writeList, ih, Memory.read_write]
    by_cases hb : b = a
    · subst hb
      simp
    · by_cases hin : a ≤ b ∧ b < a + (v :: rest).length
      · have h1 : a + 1 ≤ b ∧ b < a + 1 + rest.length := by
          have := hin.2
          simp only [List.length_cons] at this
          omega
        have h2 : b - a = (b - (a + 1)) + 1 := by omega
        rw [if_pos h1, if_pos hin, h2, List.getElem?_cons_succ]
      · have h1 : ¬(a + 1 ≤ b ∧ b < a + 1 + rest.length) := by
          simp only [List.length_cons] at hin
          omega
        rw [if_neg h1, if_neg hin, if_neg hb]

theorem Memory.mem_writeList {m : Memory α} {a : Nat} {l : List α} {p : Nat × α} (h : p ∈ m.writeList a l) :
    (a ≤ p.1 ∧ p.1 < a + l.length) ∨ p ∈ m := by
  induction l generalizing m a with
  | nil => exact .inr h
  | cons v rest ih =>
    rcases ih h with h | h
    · left
      simp only [List.length_cons]
      omega
    · rcases Memory.mem_write h with rfl | h
      · left
        simp
      · exact .inr h

theorem insideSpace_writeList {m : Memory α} {n a : Nat} {l : List α} (h : insideSpace m n) (hl : a + l.length ≤ n) :
    insideSpace (m.writeList a l) n := by
  intro p hp
  rcases Memory.mem_writeList hp with h1 | h1
  · omega
  · exact h p h1

/-- A wire block reads back as it was written. -/
theorem Memory.readBlock_writeBlock (m : Memory Byte) (a : Nat) (w : Block) :
    (m.writeBlock a w).readBlock a = some w := by
  simp [Memory.readBlock, Memory.writeBlock, Memory.read_writeList, blockBytes]

theorem heldBelow_nil : heldBelow ([] : Memory α) 0 := rfl

theorem heldBelow.wf {m : Memory α} {n : Nat} (h : heldBelow m n) : m.wf := by
  have h' : m.Pairwise (fun p q => p.1 < q.1) := by
    rw [← List.pairwise_map (f := Prod.fst) (R := (· < ·)), show m.map Prod.fst = List.range n from h]
    exact List.pairwise_lt_range
  exact h'

theorem heldBelow.inside {m : Memory α} {n : Nat} (h : heldBelow m n) : insideSpace m n := by
  intro p hp
  have : p.1 ∈ m.map Prod.fst := List.mem_map_of_mem hp
  rw [show m.map Prod.fst = List.range n from h] at this
  exact List.mem_range.1 this

theorem Memory.write_beyond {m : Memory α} {n : Nat} (h : insideSpace m n) (v : α) : m.write n v = m ++ [(n, v)] := by
  induction m with
  | nil => rfl
  | cons q rest ih =>
    obtain ⟨c, w⟩ := q
    have h1 : c < n := h (c, w) (List.mem_cons_self ..)
    have h2 : insideSpace rest n := fun p hp => h p (List.mem_cons_of_mem _ hp)
    unfold Memory.write
    rw [if_neg (by omega), if_neg (by omega), ih h2]
    rfl

/-- The first cell without a value, written, extends the cells that hold one. -/
theorem heldBelow_write {m : Memory α} {n : Nat} (h : heldBelow m n) (v : α) : heldBelow (m.write n v) (n + 1) := by
  unfold heldBelow at *
  rw [Memory.write_beyond (heldBelow.inside h), List.map_append, h, List.range_succ]
  rfl

theorem heldBelow_writeList {m : Memory α} {n : Nat} (h : heldBelow m n) (l : List α) :
    heldBelow (m.writeList n l) (n + l.length) := by
  induction l generalizing m n with
  | nil => exact h
  | cons v rest ih =>
    have := ih (heldBelow_write h v)
    rw [List.length_cons, show n + (rest.length + 1) = n + 1 + rest.length by omega]
    exact this

theorem heldBelow.read_isSome {m : Memory α} {n k : Nat} (h : heldBelow m n) (hk : k < n) : ∃ v, m.read k = some v := by
  have hmem : k ∈ m.map Prod.fst := by
    rw [show m.map Prod.fst = List.range n from h]
    exact List.mem_range.2 hk
  clear h
  induction m with
  | nil => simp at hmem
  | cons q rest ih =>
    obtain ⟨c, w⟩ := q
    by_cases hc : c = k
    · exact ⟨w, by simp [Memory.read, hc]⟩
    · have : k ∈ rest.map Prod.fst := by
        rw [List.map_cons] at hmem
        rcases List.mem_cons.1 hmem with h | h
        · exact absurd h.symm hc
        · exact h
      obtain ⟨v, hv⟩ := ih this
      exact ⟨v, by simp [Memory.read, hc, hv]⟩

theorem Memory.below_of_inside {m : Memory α} {n : Nat} (h : insideSpace m n) : m.below n = m := by
  unfold Memory.below
  rw [List.filter_eq_self]
  intro p hp
  simpa using h p hp

end Sys2Proof.Machine
end

