-- ==== Sys2Proof/Laws/State.lean ====
section
/-! SUPPORT. One lemma per field for each named update of State, true by rfl. -/

namespace Sys2Proof.Machine

variable (s : State)

@[simp] theorem emit_cfg (ev : Event) : (emit ev s).cfg = s.cfg := rfl
@[simp] theorem emit_txf (ev : Event) : (emit ev s).txf = s.txf := rfl
@[simp] theorem emit_nfr (ev : Event) : (emit ev s).nfr = s.nfr := rfl
@[simp] theorem emit_win (ev : Event) : (emit ev s).win = s.win := rfl
@[simp] theorem emit_raw (ev : Event) : (emit ev s).raw = s.raw := rfl
@[simp] theorem emit_wout (ev : Event) : (emit ev s).wout = s.wout := rfl
@[simp] theorem emit_fout (ev : Event) : (emit ev s).fout = s.fout := rfl
@[simp] theorem emit_rxf (ev : Event) : (emit ev s).rxf = s.rxf := rfl
@[simp] theorem emit_rxn (ev : Event) : (emit ev s).rxn = s.rxn := rfl
@[simp] theorem emit_temp (ev : Event) : (emit ev s).temp = s.temp := rfl
@[simp] theorem emit_status (ev : Event) : (emit ev s).status = s.status := rfl
@[simp] theorem emit_ph (ev : Event) : (emit ev s).ph = s.ph := rfl
@[simp] theorem emit_bud (ev : Event) : (emit ev s).bud = s.bud := rfl
@[simp] theorem emit_sl (ev : Event) : (emit ev s).sl = s.sl := rfl
@[simp] theorem emit_sr (ev : Event) : (emit ev s).sr = s.sr := rfl
@[simp] theorem emit_sm (ev : Event) : (emit ev s).sm = s.sm := rfl
@[simp] theorem emit_txw (ev : Event) : (emit ev s).txw = s.txw := rfl
@[simp] theorem emit_rxw (ev : Event) : (emit ev s).rxw = s.rxw := rfl
@[simp] theorem emit_tbl (ev : Event) : (emit ev s).tbl = s.tbl := rfl
@[simp] theorem emit_sArmed (ev : Event) : (emit ev s).sArmed = s.sArmed := rfl
@[simp] theorem emit_csTx (ev : Event) : (emit ev s).csTx = s.csTx := rfl
@[simp] theorem emit_trace (ev : Event) : (emit ev s).trace = s.trace ++ [ev] := rfl
@[simp] theorem emit_env (ev : Event) : (emit ev s).env = s.env := rfl
@[simp] theorem emit_host (ev : Event) : (emit ev s).host = s.host := rfl
@[simp] theorem emit_seen (ev : Event) : (emit ev s).seen = s.seen := rfl

@[simp] theorem sAbort_cfg : (sAbort s).cfg = s.cfg := rfl
@[simp] theorem sAbort_txf : (sAbort s).txf = s.txf := rfl
@[simp] theorem sAbort_nfr : (sAbort s).nfr = s.nfr := rfl
@[simp] theorem sAbort_win : (sAbort s).win = s.win := rfl
@[simp] theorem sAbort_raw : (sAbort s).raw = s.raw := rfl
@[simp] theorem sAbort_wout : (sAbort s).wout = s.wout := rfl
@[simp] theorem sAbort_fout : (sAbort s).fout = s.fout := rfl
@[simp] theorem sAbort_rxf : (sAbort s).rxf = s.rxf := rfl
@[simp] theorem sAbort_rxn : (sAbort s).rxn = s.rxn := rfl
@[simp] theorem sAbort_temp : (sAbort s).temp = s.temp := rfl
@[simp] theorem sAbort_status : (sAbort s).status = s.status := rfl
@[simp] theorem sAbort_ph : (sAbort s).ph = s.ph := rfl
@[simp] theorem sAbort_bud : (sAbort s).bud = s.bud := rfl
@[simp] theorem sAbort_sl : (sAbort s).sl = s.sl := rfl
@[simp] theorem sAbort_sr : (sAbort s).sr = s.sr := rfl
@[simp] theorem sAbort_sm : (sAbort s).sm = s.sm := rfl
@[simp] theorem sAbort_txw : (sAbort s).txw = s.txw := rfl
@[simp] theorem sAbort_rxw : (sAbort s).rxw = [] := rfl
@[simp] theorem sAbort_tbl : (sAbort s).tbl = s.tbl := rfl
@[simp] theorem sAbort_sArmed : (sAbort s).sArmed = false := rfl
@[simp] theorem sAbort_csTx : (sAbort s).csTx = s.csTx := rfl
@[simp] theorem sAbort_trace : (sAbort s).trace = s.trace ++ [.sAbort] := rfl
@[simp] theorem sAbort_env : (sAbort s).env = s.env := rfl
@[simp] theorem sAbort_host : (sAbort s).host = s.host := rfl
@[simp] theorem sAbort_seen : (sAbort s).seen = s.seen := rfl

@[simp] theorem csAssert_cfg : (csAssert s).cfg = s.cfg := rfl
@[simp] theorem csAssert_txf : (csAssert s).txf = s.txf := rfl
@[simp] theorem csAssert_nfr : (csAssert s).nfr = s.nfr := rfl
@[simp] theorem csAssert_win : (csAssert s).win = s.win := rfl
@[simp] theorem csAssert_raw : (csAssert s).raw = s.raw := rfl
@[simp] theorem csAssert_wout : (csAssert s).wout = s.wout := rfl
@[simp] theorem csAssert_fout : (csAssert s).fout = s.fout := rfl
@[simp] theorem csAssert_rxf : (csAssert s).rxf = s.rxf := rfl
@[simp] theorem csAssert_rxn : (csAssert s).rxn = s.rxn := rfl
@[simp] theorem csAssert_temp : (csAssert s).temp = s.temp := rfl
@[simp] theorem csAssert_status : (csAssert s).status = s.status := rfl
@[simp] theorem csAssert_ph : (csAssert s).ph = s.ph := rfl
@[simp] theorem csAssert_bud : (csAssert s).bud = s.bud := rfl
@[simp] theorem csAssert_sl : (csAssert s).sl = s.sl := rfl
@[simp] theorem csAssert_sr : (csAssert s).sr = s.sr := rfl
@[simp] theorem csAssert_sm : (csAssert s).sm = s.sm := rfl
@[simp] theorem csAssert_txw : (csAssert s).txw = s.txw := rfl
@[simp] theorem csAssert_rxw : (csAssert s).rxw = s.rxw := rfl
@[simp] theorem csAssert_tbl : (csAssert s).tbl = s.tbl := rfl
@[simp] theorem csAssert_sArmed : (csAssert s).sArmed = s.sArmed := rfl
@[simp] theorem csAssert_csTx : (csAssert s).csTx = .asserted := rfl
@[simp] theorem csAssert_trace : (csAssert s).trace = s.trace ++ [.csAssert] := rfl
@[simp] theorem csAssert_env : (csAssert s).env = s.env := rfl
@[simp] theorem csAssert_host : (csAssert s).host = s.host := rfl
@[simp] theorem csAssert_seen : (csAssert s).seen = s.seen := rfl

@[simp] theorem csDeassert_cfg : (csDeassert s).cfg = s.cfg := rfl
@[simp] theorem csDeassert_txf : (csDeassert s).txf = s.txf := rfl
@[simp] theorem csDeassert_nfr : (csDeassert s).nfr = s.nfr := rfl
@[simp] theorem csDeassert_win : (csDeassert s).win = s.win := rfl
@[simp] theorem csDeassert_raw : (csDeassert s).raw = s.raw := rfl
@[simp] theorem csDeassert_wout : (csDeassert s).wout = s.wout := rfl
@[simp] theorem csDeassert_fout : (csDeassert s).fout = s.fout := rfl
@[simp] theorem csDeassert_rxf : (csDeassert s).rxf = s.rxf := rfl
@[simp] theorem csDeassert_rxn : (csDeassert s).rxn = s.rxn := rfl
@[simp] theorem csDeassert_temp : (csDeassert s).temp = s.temp := rfl
@[simp] theorem csDeassert_status : (csDeassert s).status = s.status := rfl
@[simp] theorem csDeassert_ph : (csDeassert s).ph = s.ph := rfl
@[simp] theorem csDeassert_bud : (csDeassert s).bud = s.bud := rfl
@[simp] theorem csDeassert_sl : (csDeassert s).sl = s.sl := rfl
@[simp] theorem csDeassert_sr : (csDeassert s).sr = s.sr := rfl
@[simp] theorem csDeassert_sm : (csDeassert s).sm = s.sm := rfl
@[simp] theorem csDeassert_txw : (csDeassert s).txw = s.txw := rfl
@[simp] theorem csDeassert_rxw : (csDeassert s).rxw = s.rxw := rfl
@[simp] theorem csDeassert_tbl : (csDeassert s).tbl = s.tbl := rfl
@[simp] theorem csDeassert_sArmed : (csDeassert s).sArmed = s.sArmed := rfl
@[simp] theorem csDeassert_csTx : (csDeassert s).csTx = .deasserted := rfl
@[simp] theorem csDeassert_trace : (csDeassert s).trace = s.trace ++ [.csDeassert] := rfl
@[simp] theorem csDeassert_env : (csDeassert s).env = s.env := rfl
@[simp] theorem csDeassert_host : (csDeassert s).host = s.host := rfl
@[simp] theorem csDeassert_seen : (csDeassert s).seen = s.seen := rfl

@[simp] theorem delayUs_cfg (n : Nat) : (delayUs n s).cfg = s.cfg := rfl
@[simp] theorem delayUs_txf (n : Nat) : (delayUs n s).txf = s.txf := rfl
@[simp] theorem delayUs_nfr (n : Nat) : (delayUs n s).nfr = s.nfr := rfl
@[simp] theorem delayUs_win (n : Nat) : (delayUs n s).win = s.win := rfl
@[simp] theorem delayUs_raw (n : Nat) : (delayUs n s).raw = s.raw := rfl
@[simp] theorem delayUs_wout (n : Nat) : (delayUs n s).wout = s.wout := rfl
@[simp] theorem delayUs_fout (n : Nat) : (delayUs n s).fout = s.fout := rfl
@[simp] theorem delayUs_rxf (n : Nat) : (delayUs n s).rxf = s.rxf := rfl
@[simp] theorem delayUs_rxn (n : Nat) : (delayUs n s).rxn = s.rxn := rfl
@[simp] theorem delayUs_temp (n : Nat) : (delayUs n s).temp = s.temp := rfl
@[simp] theorem delayUs_status (n : Nat) : (delayUs n s).status = s.status := rfl
@[simp] theorem delayUs_ph (n : Nat) : (delayUs n s).ph = s.ph := rfl
@[simp] theorem delayUs_bud (n : Nat) : (delayUs n s).bud = s.bud := rfl
@[simp] theorem delayUs_sl (n : Nat) : (delayUs n s).sl = s.sl := rfl
@[simp] theorem delayUs_sr (n : Nat) : (delayUs n s).sr = s.sr := rfl
@[simp] theorem delayUs_sm (n : Nat) : (delayUs n s).sm = s.sm := rfl
@[simp] theorem delayUs_txw (n : Nat) : (delayUs n s).txw = s.txw := rfl
@[simp] theorem delayUs_rxw (n : Nat) : (delayUs n s).rxw = s.rxw := rfl
@[simp] theorem delayUs_tbl (n : Nat) : (delayUs n s).tbl = s.tbl := rfl
@[simp] theorem delayUs_sArmed (n : Nat) : (delayUs n s).sArmed = s.sArmed := rfl
@[simp] theorem delayUs_csTx (n : Nat) : (delayUs n s).csTx = s.csTx := rfl
@[simp] theorem delayUs_trace (n : Nat) : (delayUs n s).trace = s.trace ++ [.delayUs n] := rfl
@[simp] theorem delayUs_env (n : Nat) : (delayUs n s).env = s.env := rfl
@[simp] theorem delayUs_host (n : Nat) : (delayUs n s).host = s.host := rfl
@[simp] theorem delayUs_seen (n : Nat) : (delayUs n s).seen = s.seen := rfl

@[simp] theorem putRxn_cfg (n : Nat) : (putRxn n s).cfg = s.cfg := rfl
@[simp] theorem putRxn_txf (n : Nat) : (putRxn n s).txf = s.txf := rfl
@[simp] theorem putRxn_nfr (n : Nat) : (putRxn n s).nfr = s.nfr := rfl
@[simp] theorem putRxn_win (n : Nat) : (putRxn n s).win = s.win := rfl
@[simp] theorem putRxn_raw (n : Nat) : (putRxn n s).raw = s.raw := rfl
@[simp] theorem putRxn_wout (n : Nat) : (putRxn n s).wout = s.wout := rfl
@[simp] theorem putRxn_fout (n : Nat) : (putRxn n s).fout = s.fout := rfl
@[simp] theorem putRxn_rxf (n : Nat) : (putRxn n s).rxf = Memory.below s.rxf n := rfl
@[simp] theorem putRxn_rxn (n : Nat) : (putRxn n s).rxn = BitVec.ofNat 16 n := rfl
@[simp] theorem putRxn_temp (n : Nat) : (putRxn n s).temp = s.temp := rfl
@[simp] theorem putRxn_status (n : Nat) : (putRxn n s).status = s.status := rfl
@[simp] theorem putRxn_ph (n : Nat) : (putRxn n s).ph = s.ph := rfl
@[simp] theorem putRxn_bud (n : Nat) : (putRxn n s).bud = s.bud := rfl
@[simp] theorem putRxn_sl (n : Nat) : (putRxn n s).sl = s.sl := rfl
@[simp] theorem putRxn_sr (n : Nat) : (putRxn n s).sr = s.sr := rfl
@[simp] theorem putRxn_sm (n : Nat) : (putRxn n s).sm = s.sm := rfl
@[simp] theorem putRxn_txw (n : Nat) : (putRxn n s).txw = s.txw := rfl
@[simp] theorem putRxn_rxw (n : Nat) : (putRxn n s).rxw = s.rxw := rfl
@[simp] theorem putRxn_tbl (n : Nat) : (putRxn n s).tbl = s.tbl := rfl
@[simp] theorem putRxn_sArmed (n : Nat) : (putRxn n s).sArmed = s.sArmed := rfl
@[simp] theorem putRxn_csTx (n : Nat) : (putRxn n s).csTx = s.csTx := rfl
@[simp] theorem putRxn_trace (n : Nat) : (putRxn n s).trace = s.trace := rfl
@[simp] theorem putRxn_env (n : Nat) : (putRxn n s).env = s.env := rfl
@[simp] theorem putRxn_host (n : Nat) : (putRxn n s).host = s.host := rfl
@[simp] theorem putRxn_seen (n : Nat) : (putRxn n s).seen = s.seen := rfl

@[simp] theorem issue_cfg (p : Phase) : (issue p s).cfg = s.cfg := rfl
@[simp] theorem issue_txf (p : Phase) : (issue p s).txf = s.txf := rfl
@[simp] theorem issue_nfr (p : Phase) : (issue p s).nfr = s.nfr := rfl
@[simp] theorem issue_win (p : Phase) : (issue p s).win = s.win := rfl
@[simp] theorem issue_raw (p : Phase) : (issue p s).raw = s.raw := rfl
@[simp] theorem issue_wout (p : Phase) : (issue p s).wout = s.wout := rfl
@[simp] theorem issue_fout (p : Phase) : (issue p s).fout = s.fout := rfl
@[simp] theorem issue_rxf (p : Phase) : (issue p s).rxf = s.rxf := rfl
@[simp] theorem issue_rxn (p : Phase) : (issue p s).rxn = s.rxn := rfl
@[simp] theorem issue_temp (p : Phase) : (issue p s).temp = s.temp := rfl
@[simp] theorem issue_status (p : Phase) : (issue p s).status = issuedStatus s.status := rfl
@[simp] theorem issue_ph (p : Phase) : (issue p s).ph = p := rfl
@[simp] theorem issue_bud (p : Phase) : (issue p s).bud = s.bud := rfl
@[simp] theorem issue_sl (p : Phase) : (issue p s).sl = s.sl := rfl
@[simp] theorem issue_sr (p : Phase) : (issue p s).sr = s.sr := rfl
@[simp] theorem issue_sm (p : Phase) : (issue p s).sm = s.sm := rfl
@[simp] theorem issue_txw (p : Phase) : (issue p s).txw = s.txw := rfl
@[simp] theorem issue_rxw (p : Phase) : (issue p s).rxw = s.rxw := rfl
@[simp] theorem issue_tbl (p : Phase) : (issue p s).tbl = s.tbl := rfl
@[simp] theorem issue_sArmed (p : Phase) : (issue p s).sArmed = s.sArmed := rfl
@[simp] theorem issue_csTx (p : Phase) : (issue p s).csTx = s.csTx := rfl
@[simp] theorem issue_trace (p : Phase) : (issue p s).trace = s.trace := rfl
@[simp] theorem issue_env (p : Phase) : (issue p s).env = s.env := rfl
@[simp] theorem issue_host (p : Phase) : (issue p s).host = s.host := rfl
@[simp] theorem issue_seen (p : Phase) : (issue p s).seen = s.seen := rfl

@[simp] theorem issueTransfer_cfg (p : Phase) : (issueTransfer p s).cfg = s.cfg := rfl
@[simp] theorem issueTransfer_txf (p : Phase) : (issueTransfer p s).txf = s.txf := rfl
@[simp] theorem issueTransfer_nfr (p : Phase) : (issueTransfer p s).nfr = s.nfr := rfl
@[simp] theorem issueTransfer_win (p : Phase) : (issueTransfer p s).win = s.win := rfl
@[simp] theorem issueTransfer_raw (p : Phase) : (issueTransfer p s).raw = s.raw := rfl
@[simp] theorem issueTransfer_wout (p : Phase) : (issueTransfer p s).wout = s.wout := rfl
@[simp] theorem issueTransfer_fout (p : Phase) : (issueTransfer p s).fout = s.fout := rfl
@[simp] theorem issueTransfer_rxf (p : Phase) : (issueTransfer p s).rxf = Memory.below s.rxf 0 := rfl
@[simp] theorem issueTransfer_rxn (p : Phase) : (issueTransfer p s).rxn = 0#16 := rfl
@[simp] theorem issueTransfer_temp (p : Phase) : (issueTransfer p s).temp = s.temp := rfl
@[simp] theorem issueTransfer_status (p : Phase) : (issueTransfer p s).status = issuedStatus s.status := rfl
@[simp] theorem issueTransfer_ph (p : Phase) : (issueTransfer p s).ph = p := rfl
@[simp] theorem issueTransfer_bud (p : Phase) : (issueTransfer p s).bud = s.bud := rfl
@[simp] theorem issueTransfer_sl (p : Phase) : (issueTransfer p s).sl = s.sl := rfl
@[simp] theorem issueTransfer_sr (p : Phase) : (issueTransfer p s).sr = s.sr := rfl
@[simp] theorem issueTransfer_sm (p : Phase) : (issueTransfer p s).sm = s.sm := rfl
@[simp] theorem issueTransfer_txw (p : Phase) : (issueTransfer p s).txw = s.txw := rfl
@[simp] theorem issueTransfer_rxw (p : Phase) : (issueTransfer p s).rxw = s.rxw := rfl
@[simp] theorem issueTransfer_tbl (p : Phase) : (issueTransfer p s).tbl = s.tbl := rfl
@[simp] theorem issueTransfer_sArmed (p : Phase) : (issueTransfer p s).sArmed = s.sArmed := rfl
@[simp] theorem issueTransfer_csTx (p : Phase) : (issueTransfer p s).csTx = s.csTx := rfl
@[simp] theorem issueTransfer_trace (p : Phase) : (issueTransfer p s).trace = s.trace := rfl
@[simp] theorem issueTransfer_env (p : Phase) : (issueTransfer p s).env = s.env := rfl
@[simp] theorem issueTransfer_host (p : Phase) : (issueTransfer p s).host = s.host := rfl
@[simp] theorem issueTransfer_seen (p : Phase) : (issueTransfer p s).seen = s.seen := rfl

@[simp] theorem complete_cfg (e : Code) : (complete e s).cfg = s.cfg := rfl
@[simp] theorem complete_txf (e : Code) : (complete e s).txf = s.txf := rfl
@[simp] theorem complete_nfr (e : Code) : (complete e s).nfr = s.nfr := rfl
@[simp] theorem complete_win (e : Code) : (complete e s).win = s.win := rfl
@[simp] theorem complete_raw (e : Code) : (complete e s).raw = s.raw := rfl
@[simp] theorem complete_wout (e : Code) : (complete e s).wout = s.wout := rfl
@[simp] theorem complete_fout (e : Code) : (complete e s).fout = s.fout := rfl
@[simp] theorem complete_rxf (e : Code) : (complete e s).rxf = s.rxf := rfl
@[simp] theorem complete_rxn (e : Code) : (complete e s).rxn = s.rxn := rfl
@[simp] theorem complete_temp (e : Code) : (complete e s).temp = s.temp := rfl
@[simp] theorem complete_status (e : Code) : (complete e s).status = completedStatus e s.status := rfl
@[simp] theorem complete_ph (e : Code) : (complete e s).ph = .idle := rfl
@[simp] theorem complete_bud (e : Code) : (complete e s).bud = s.bud := rfl
@[simp] theorem complete_sl (e : Code) : (complete e s).sl = s.sl := rfl
@[simp] theorem complete_sr (e : Code) : (complete e s).sr = s.sr := rfl
@[simp] theorem complete_sm (e : Code) : (complete e s).sm = s.sm := rfl
@[simp] theorem complete_txw (e : Code) : (complete e s).txw = s.txw := rfl
@[simp] theorem complete_rxw (e : Code) : (complete e s).rxw = s.rxw := rfl
@[simp] theorem complete_tbl (e : Code) : (complete e s).tbl = s.tbl := rfl
@[simp] theorem complete_sArmed (e : Code) : (complete e s).sArmed = s.sArmed := rfl
@[simp] theorem complete_csTx (e : Code) : (complete e s).csTx = s.csTx := rfl
@[simp] theorem complete_trace (e : Code) : (complete e s).trace = s.trace := rfl
@[simp] theorem complete_env (e : Code) : (complete e s).env = s.env := rfl
@[simp] theorem complete_host (e : Code) : (complete e s).host = s.host := rfl
@[simp] theorem complete_seen (e : Code) : (complete e s).seen = s.seen := rfl

@[simp] theorem raiseError_cfg (e : Code) : (raiseError e s).cfg = s.cfg := rfl
@[simp] theorem raiseError_txf (e : Code) : (raiseError e s).txf = s.txf := rfl
@[simp] theorem raiseError_nfr (e : Code) : (raiseError e s).nfr = s.nfr := rfl
@[simp] theorem raiseError_win (e : Code) : (raiseError e s).win = s.win := rfl
@[simp] theorem raiseError_raw (e : Code) : (raiseError e s).raw = s.raw := rfl
@[simp] theorem raiseError_wout (e : Code) : (raiseError e s).wout = s.wout := rfl
@[simp] theorem raiseError_fout (e : Code) : (raiseError e s).fout = s.fout := rfl
@[simp] theorem raiseError_rxf (e : Code) : (raiseError e s).rxf = Memory.below s.rxf 0 := rfl
@[simp] theorem raiseError_rxn (e : Code) : (raiseError e s).rxn = 0#16 := rfl
@[simp] theorem raiseError_temp (e : Code) : (raiseError e s).temp = s.temp := rfl
@[simp] theorem raiseError_status (e : Code) : (raiseError e s).status = completedStatus e s.status := rfl
@[simp] theorem raiseError_ph (e : Code) : (raiseError e s).ph = .idle := rfl
@[simp] theorem raiseError_bud (e : Code) : (raiseError e s).bud = s.bud := rfl
@[simp] theorem raiseError_sl (e : Code) : (raiseError e s).sl = s.sl := rfl
@[simp] theorem raiseError_sr (e : Code) : (raiseError e s).sr = s.sr := rfl
@[simp] theorem raiseError_sm (e : Code) : (raiseError e s).sm = s.sm := rfl
@[simp] theorem raiseError_txw (e : Code) : (raiseError e s).txw = s.txw := rfl
@[simp] theorem raiseError_rxw (e : Code) : (raiseError e s).rxw = [] := rfl
@[simp] theorem raiseError_tbl (e : Code) : (raiseError e s).tbl = s.tbl := rfl
@[simp] theorem raiseError_sArmed (e : Code) : (raiseError e s).sArmed = s.sArmed := rfl
@[simp] theorem raiseError_csTx (e : Code) : (raiseError e s).csTx = s.csTx := rfl
@[simp] theorem raiseError_trace (e : Code) : (raiseError e s).trace = s.trace := rfl
@[simp] theorem raiseError_env (e : Code) : (raiseError e s).env = s.env := rfl
@[simp] theorem raiseError_host (e : Code) : (raiseError e s).host = s.host := rfl
@[simp] theorem raiseError_seen (e : Code) : (raiseError e s).seen = s.seen := rfl

@[simp] theorem deliver_cfg (n : Nat) (v : RegVal) : (deliver n v s).cfg = s.cfg := rfl
@[simp] theorem deliver_txf (n : Nat) (v : RegVal) : (deliver n v s).txf = s.txf := rfl
@[simp] theorem deliver_nfr (n : Nat) (v : RegVal) : (deliver n v s).nfr = s.nfr := rfl
@[simp] theorem deliver_win (n : Nat) (v : RegVal) : (deliver n v s).win = s.win := rfl
@[simp] theorem deliver_raw (n : Nat) (v : RegVal) : (deliver n v s).raw = s.raw := rfl
@[simp] theorem deliver_wout (n : Nat) (v : RegVal) : (deliver n v s).wout = s.wout := rfl
@[simp] theorem deliver_fout (n : Nat) (v : RegVal) : (deliver n v s).fout = s.fout := rfl
@[simp] theorem deliver_rxf (n : Nat) (v : RegVal) : (deliver n v s).rxf = s.rxf := rfl
@[simp] theorem deliver_rxn (n : Nat) (v : RegVal) : (deliver n v s).rxn = s.rxn := rfl
@[simp] theorem deliver_temp (n : Nat) (v : RegVal) : (deliver n v s).temp = s.temp := rfl
@[simp] theorem deliver_status (n : Nat) (v : RegVal) : (deliver n v s).status = s.status := rfl
@[simp] theorem deliver_ph (n : Nat) (v : RegVal) : (deliver n v s).ph = s.ph := rfl
@[simp] theorem deliver_bud (n : Nat) (v : RegVal) : (deliver n v s).bud = s.bud := rfl
@[simp] theorem deliver_sl (n : Nat) (v : RegVal) : (deliver n v s).sl = s.sl := rfl
@[simp] theorem deliver_sr (n : Nat) (v : RegVal) : (deliver n v s).sr = s.sr := rfl
@[simp] theorem deliver_sm (n : Nat) (v : RegVal) : (deliver n v s).sm = s.sm := rfl
@[simp] theorem deliver_txw (n : Nat) (v : RegVal) : (deliver n v s).txw = s.txw := rfl
@[simp] theorem deliver_rxw (n : Nat) (v : RegVal) : (deliver n v s).rxw = s.rxw := rfl
@[simp] theorem deliver_tbl (n : Nat) (v : RegVal) : (deliver n v s).tbl = s.tbl := rfl
@[simp] theorem deliver_sArmed (n : Nat) (v : RegVal) : (deliver n v s).sArmed = s.sArmed := rfl
@[simp] theorem deliver_csTx (n : Nat) (v : RegVal) : (deliver n v s).csTx = s.csTx := rfl
@[simp] theorem deliver_trace (n : Nat) (v : RegVal) : (deliver n v s).trace = s.trace := rfl
@[simp] theorem deliver_env (n : Nat) (v : RegVal) : (deliver n v s).env = s.env := rfl
@[simp] theorem deliver_host (n : Nat) (v : RegVal) : (deliver n v s).host = s.host := rfl
@[simp] theorem deliver_seen (n : Nat) (v : RegVal) : (deliver n v s).seen = s.seen ++ [(n, v)] := rfl

end Sys2Proof.Machine
end

