-- ==== Sys2Proof/Laws/Ops.lean ====
section
/-! SUPPORT. What each shared operation can do, said once: when a check lets its continuation run, what issuing needs,
what each event primitive answers, and how a looping phase unrolls. -/

namespace Sys2Proof.Machine

/-! ### Checks: what they need, and what they answer when that holds -/

theorem whenIdle_eq {s : State} {k : Answer} (hb : busyOf s.status = false) (hp : s.ph = .idle) : whenIdle s k = k :=
  if_pos ⟨hb, hp⟩

theorem whenIdle_next {s t : State} {k : Answer} (h : whenIdle s k = .next t) :
    busyOf s.status = false ∧ s.ph = .idle ∧ k = .next t := by
  unfold whenIdle at h
  split at h
  · rename_i hc; exact ⟨hc.1, hc.2, h⟩
  · cases h

theorem whenInMode_eq {i : Instr} {s : State} {k : Answer} (h : i.wellFormed s.cfg.mode = true) :
    whenInMode i s k = k := if_pos h

theorem whenInMode_next {i : Instr} {s t : State} {k : Answer} (h : whenInMode i s k = .next t) :
    i.wellFormed s.cfg.mode = true ∧ k = .next t := by
  unfold whenInMode at h
  split at h
  · exact ⟨‹_›, h⟩
  · cases h

@[simp] theorem withOperand_some {α : Type} (n : Nat) (x : α) (k : α → Answer) :
    withOperand n (some x) k = k x := rfl

theorem withOperand_next {α : Type} {n : Nat} {v : Option α} {k : α → Answer} {t : State}
    (h : withOperand n v k = .next t) : ∃ x, v = some x ∧ k x = .next t := by
  cases v with
  | none => cases h
  | some x => exact ⟨x, rfl, h⟩

theorem whenFrameCount_eq {n : Nat} {s : State} {k : Answer} (h1 : 1 ≤ n) (h2 : n ≤ s.cfg.maxFrames) :
    whenFrameCount n s k = k := if_pos ⟨h1, h2⟩

theorem whenFrameCount_next {n : Nat} {s t : State} {k : Answer} (h : whenFrameCount n s k = .next t) :
    1 ≤ n ∧ n ≤ s.cfg.maxFrames ∧ k = .next t := by
  unfold whenFrameCount at h
  split at h
  · rename_i hc; exact ⟨hc.1, hc.2, h⟩
  · cases h

theorem whenTableUnbuilt_eq {s : State} {k : Answer} (h : tblValidOf s.status = false) : whenTableUnbuilt s k = k :=
  if_pos h

theorem whenTableUnbuilt_next {s t : State} {k : Answer} (h : whenTableUnbuilt s k = .next t) :
    tblValidOf s.status = false ∧ k = .next t := by
  unfold whenTableUnbuilt at h
  split at h
  · exact ⟨‹_›, h⟩
  · cases h

theorem whenThermalLegal_eq {s : State} {k : Answer} (h : thermalLegal s.cfg = true) : whenThermalLegal s k = k :=
  if_pos h

theorem whenThermalLegal_next {s t : State} {k : Answer} (h : whenThermalLegal s k = .next t) :
    thermalLegal s.cfg = true ∧ k = .next t := by
  unfold whenThermalLegal at h
  split at h
  · exact ⟨‹_›, h⟩
  · cases h

theorem whenTableBuilt_eq {s : State} {k : Answer} (h : tblValidOf s.status = true) : whenTableBuilt s k = k :=
  if_pos h

theorem whenTableBuilt_next {s t : State} {k : Answer} (h : whenTableBuilt s k = .next t) :
    tblValidOf s.status = true ∧ k = .next t := by
  unfold whenTableBuilt at h
  split at h
  · exact ⟨‹_›, h⟩
  · cases h

theorem whenTableFit_eq {s : State} {k : Answer} (h : tableFit s.cfg s.tbl = true) : whenTableFit s k = k := if_pos h

theorem whenTableFit_next {s t : State} {k : Answer} (h : whenTableFit s k = .next t) :
    tableFit s.cfg s.tbl = true ∧ k = .next t := by
  unfold whenTableFit at h
  split at h
  · exact ⟨‹_›, h⟩
  · cases h

theorem whenInsideRxw_next {n : Nat} {s t : State} {k : Answer} (h : whenInsideRxw n s k = .next t) :
    n ≤ s.cfg.maxFrames ∧ k = .next t := by
  unfold whenInsideRxw at h
  split at h
  · exact ⟨‹_›, h⟩
  · cases h

theorem whenInsideTbl_next {s t : State} {k : Answer} (h : whenInsideTbl s k = .next t) :
    (s.sl < s.sr ∧ s.sr < nt s.cfg) ∧ k = .next t := by
  unfold whenInsideTbl at h
  split at h
  · exact ⟨‹_›, h⟩
  · cases h

/-! ### Issuing -/

theorem startEnc_next {s t : State} {k : Frame → Answer} (h : startEnc s k = .next t) :
    busyOf s.status = false ∧ s.ph = .idle ∧ ∃ f, s.txf = some f ∧ k f = .next t := by
  obtain ⟨hb, hp, h⟩ := whenIdle_next h
  exact ⟨hb, hp, withOperand_next h⟩

theorem startDec_next {s t : State} {k : Block → Answer} (h : startDec s k = .next t) :
    busyOf s.status = false ∧ s.ph = .idle ∧ ∃ w, s.win = some w ∧ k w = .next t := by
  obtain ⟨hb, hp, h⟩ := whenIdle_next h
  exact ⟨hb, hp, withOperand_next h⟩

theorem startSpix_eq {s : State} {f : Frame} {k : Frame → State → Answer} (hb : busyOf s.status = false)
    (hp : s.ph = .idle) (hm : s.cfg.mode = .spi) (hf : s.txf = some f) :
    startSpix s k = k f (issueTransfer .spiXfer s) := by
  unfold startSpix
  rw [whenIdle_eq hb hp, whenInMode_eq (by rw [hm]; rfl), hf, withOperand_some]

theorem startSpix_next {s t : State} {k : Frame → State → Answer} (h : startSpix s k = .next t) :
    busyOf s.status = false ∧ s.ph = .idle ∧ s.cfg.mode = .spi ∧
      ∃ f, s.txf = some f ∧ k f (issueTransfer .spiXfer s) = .next t := by
  obtain ⟨hb, hp, h⟩ := whenIdle_next h
  obtain ⟨hm, h⟩ := whenInMode_next h
  refine ⟨hb, hp, ?_, withOperand_next h⟩
  cases hmode : s.cfg.mode <;> simp [Instr.wellFormed, hmode] at hm ⊢

theorem startTplx_eq {s : State} {f : Frame} {n : Word16} {k : Frame → Nat → State → Answer}
    (hb : busyOf s.status = false) (hp : s.ph = .idle) (hm : s.cfg.mode ≠ .spi) (hf : s.txf = some f)
    (hn : s.nfr = some n) (h1 : 1 ≤ n.toNat) (h2 : n.toNat ≤ s.cfg.maxFrames) :
    startTplx s k = k f n.toNat (issueTransfer .tplArm s) := by
  unfold startTplx
  have hw : Instr.wellFormed s.cfg.mode .tplx = true := by
    cases hmode : s.cfg.mode <;> simp [Instr.wellFormed, hmode] at hm ⊢
  rw [whenIdle_eq hb hp, whenInMode_eq hw, hf, withOperand_some, hn, withOperand_some, whenFrameCount_eq h1 h2]

theorem startTplx_next {s t : State} {k : Frame → Nat → State → Answer} (h : startTplx s k = .next t) :
    busyOf s.status = false ∧ s.ph = .idle ∧ s.cfg.mode ≠ .spi ∧
      ∃ f n, s.txf = some f ∧ s.nfr = some n ∧ 1 ≤ n.toNat ∧ n.toNat ≤ s.cfg.maxFrames ∧
        k f n.toNat (issueTransfer .tplArm s) = .next t := by
  obtain ⟨hb, hp, h⟩ := whenIdle_next h
  obtain ⟨hm, h⟩ := whenInMode_next h
  obtain ⟨f, hf, h⟩ := withOperand_next h
  obtain ⟨n, hn, h⟩ := withOperand_next h
  obtain ⟨h1, h2, h⟩ := whenFrameCount_next h
  refine ⟨hb, hp, ?_, f, n, hf, hn, h1, h2, h⟩
  cases hmode : s.cfg.mode <;> simp [Instr.wellFormed, hmode] at hm ⊢

theorem startTbld_eq {s : State} {k : State → Answer} (hb : busyOf s.status = false) (hp : s.ph = .idle)
    (hv : tblValidOf s.status = false) (hl : thermalLegal s.cfg = true) : startTbld s k = k (issue .tblFill s) := by
  unfold startTbld
  rw [whenIdle_eq hb hp, whenTableUnbuilt_eq hv, whenThermalLegal_eq hl]

theorem startTbld_next {s t : State} {k : State → Answer} (h : startTbld s k = .next t) :
    busyOf s.status = false ∧ s.ph = .idle ∧ tblValidOf s.status = false ∧ thermalLegal s.cfg = true ∧
      k (issue .tblFill s) = .next t := by
  obtain ⟨hb, hp, h⟩ := whenIdle_next h
  obtain ⟨hv, h⟩ := whenTableUnbuilt_next h
  obtain ⟨hl, h⟩ := whenThermalLegal_next h
  exact ⟨hb, hp, hv, hl, h⟩

theorem startTinv_eq {s : State} {r : Word16} {k : Nat → State → Answer} (hb : busyOf s.status = false)
    (hp : s.ph = .idle) (hv : tblValidOf s.status = true) (hr : s.raw = some r) (ht : tableFit s.cfg s.tbl = true) :
    startTinv s k = k r.toNat (issue .invRange s) := by
  unfold startTinv
  rw [whenIdle_eq hb hp, whenTableBuilt_eq hv, hr, withOperand_some, whenTableFit_eq ht]

theorem startTinv_next {s t : State} {k : Nat → State → Answer} (h : startTinv s k = .next t) :
    busyOf s.status = false ∧ s.ph = .idle ∧ tblValidOf s.status = true ∧
      ∃ r, s.raw = some r ∧ tableFit s.cfg s.tbl = true ∧ k r.toNat (issue .invRange s) = .next t := by
  obtain ⟨hb, hp, h⟩ := whenIdle_next h
  obtain ⟨hv, h⟩ := whenTableBuilt_next h
  obtain ⟨r, hr, h⟩ := withOperand_next h
  obtain ⟨ht, h⟩ := whenTableFit_next h
  exact ⟨hb, hp, hv, r, hr, ht, h⟩

/-! ### Event primitives: the answer and the state after it -/

theorem sArm_ok {n : Nat} {s : State} (h : s.env.armAt 0 = .armOk) :
    sArm n s = (.armOk, emit (.sArm n .armOk) { s with env := s.env.afterArm, sArmed := true, rxw := [] }) := by
  unfold sArm; rw [h]

theorem sArm_fail {n : Nat} {s : State} (h : s.env.armAt 0 = .armFail) :
    sArm n s = (.armFail, emit (.sArm n .armFail) { s with env := s.env.afterArm }) := by
  unfold sArm; rw [h]

theorem sPoll_busy {n : Nat} {s : State} (h : s.env.pollAt 0 = .busy) :
    sPoll n s = (.busy, emit (.sPoll .busy) { s with env := s.env.afterPolls 1 }) := by
  unfold sPoll; rw [h]

theorem sPoll_idle {n : Nat} {s : State} (h : s.env.pollAt 0 = .idle) :
    sPoll n s = (.idle, emit (.sPoll .idle)
      { s with env := (s.env.afterPolls 1).afterData n, sArmed := false,
               rxw := Memory.writeList [] 0 ((s.env.afterPolls 1).sData n) }) := by
  unfold sPoll; rw [h]

@[simp] theorem pollAt_afterPolls (e : Env) (j k : Nat) : (e.afterPolls j).pollAt k = e.pollAt (j + k) := by
  simp [Env.pollAt, Env.afterPolls, List.getElem?_drop, Nat.add_assoc]

@[simp] theorem afterPolls_afterPolls (e : Env) (j k : Nat) : (e.afterPolls j).afterPolls k = e.afterPolls (j + k) := by
  simp [Env.afterPolls, List.drop_drop, Nat.add_assoc]

@[simp] theorem afterPolls_zero (e : Env) : e.afterPolls 0 = e := by
  simp [Env.afterPolls]

theorem length_sData (e : Env) (n : Nat) : (e.sData n).length = 8 * n := by
  induction n with
  | zero => rfl
  | succ n ih =>
    simp only [Env.sData, List.range_succ, List.flatMap_append, List.length_append] at ih ⊢
    rw [ih]
    simp [blockBytes]
    omega

/-- The bytes of block `k` of the received data. -/
theorem sData_getElem (e : Env) (n k j : Nat) (hk : k < n) (hj : j < 8) :
    (e.sData n)[8 * k + j]? = (blockBytes (e.blockAt k))[j]? := by
  induction n with
  | zero => omega
  | succ n ih =>
    have hs : e.sData (n + 1) = e.sData n ++ blockBytes (e.blockAt n) := by
      simp [Env.sData, List.range_succ, List.flatMap_append]
    rw [hs]
    by_cases hkn : k < n
    · rw [List.getElem?_append_left (by rw [length_sData]; omega), ih hkn]
    · have : k = n := by omega
      subst this
      rw [List.getElem?_append_right (by rw [length_sData]; omega), length_sData]
      congr 1
      omega

/-- Block `k` of RXW after the received data has been placed there. -/
theorem readBlock_sData (e : Env) (n k : Nat) (hk : k < n) :
    Memory.readBlock (Memory.writeList [] 0 (e.sData n)) (8 * k) = some (e.blockAt k) := by
  have hr : ∀ j, j < 8 → Memory.read (Memory.writeList ([] : Memory Byte) 0 (e.sData n)) (8 * k + j)
      = (blockBytes (e.blockAt k))[j]? := by
    intro j hj
    rw [Memory.read_writeList, if_pos (by rw [length_sData]; omega)]
    exact sData_getElem e n k j hk hj
  have h0 := hr 0 (by omega)
  rw [Nat.add_zero] at h0
  unfold Memory.readBlock
  rw [h0, hr 1 (by omega), hr 2 (by omega), hr 3 (by omega), hr 4 (by omega), hr 5 (by omega), hr 6 (by omega),
    hr 7 (by omega)]
  rfl

/-! ### Looping phases -/

theorem runPhase_out {p : Phase} {body : State → State} {s : State} (h : s.ph ≠ p) (fuel : Nat) :
    runPhase p body fuel s = s := by
  cases fuel with
  | zero => rfl
  | succ k => exact if_neg h

theorem runPhase_in {p : Phase} {body : State → State} {s : State} (h : s.ph = p) (fuel : Nat) :
    runPhase p body (fuel + 1) s = runPhase p body fuel (body s) := if_pos h

/-! ### The phases of TPLX -/

theorem tplArm_ok {n : Nat} {s : State} (h : s.env.armAt 0 = .armOk) :
    tplArm n s =
      { s with env := s.env.afterArm, sArmed := true, rxw := [], trace := s.trace ++ [.sArm (8 * n) .armOk],
               ph := .tplTx } := by
  unfold tplArm; rw [sArm_ok h]; rfl

theorem tplArm_fail {n : Nat} {s : State} (h : s.env.armAt 0 = .armFail) :
    tplArm n s = raiseError .busBusy { s with env := s.env.afterArm, trace := s.trace ++ [.sArm (8 * n) .armFail] } := by
  unfold tplArm; rw [sArm_fail h]; rfl

/-- Phase TPL_TX up to the answer: TXW written, the framed transmit in the trace, the chip-select as it was. -/
def transmitted (f : Frame) (s : State) : State :=
  { s with txw := Memory.writeBlock s.txw 0 (encodeFrame f), env := s.env.afterXfer,
           csTx := if s.cfg.mode = .tplSwcs then .deasserted else s.csTx,
           trace := s.trace ++ framedTransmit s.cfg (encodeFrame f) (xferSeen .txOnly s.env.nextXfer) }

theorem tplTx_eq (f : Frame) (s : State) : tplTx f s = tplSent s.env.nextXfer (transmitted f s) := by
  unfold tplTx transmitted framedTransmit frameBegin frameEnd mXfer
  cases hm : s.cfg.mode <;> simp [hm, csAssert, csDeassert, delayUs, emit]

/-- The state after `k` busy polls. -/
def polledBusy (k : Nat) (s : State) : State :=
  { s with trace := s.trace ++ List.replicate k (.sPoll .busy), env := s.env.afterPolls k, bud := s.bud - k }

theorem tplPoll_busy {n : Nat} {s : State} (hb : s.bud ≠ 0) (h : s.env.pollAt 0 = .busy) :
    tplPoll n s = polledBusy 1 s := by
  unfold tplPoll
  rw [if_neg hb, sPoll_busy h]
  rfl

theorem tplPoll_idle {n : Nat} {s : State} (hb : s.bud ≠ 0) (h : s.env.pollAt 0 = .idle) :
    tplPoll n s =
      { s with env := (s.env.afterPolls 1).afterData n, sArmed := false,
               rxw := Memory.writeList [] 0 ((s.env.afterPolls 1).sData n), trace := s.trace ++ [.sPoll .idle],
               ph := .tplDecode } := by
  unfold tplPoll
  rw [if_neg hb, sPoll_idle h]
  rfl

theorem tplPoll_spent {n : Nat} {s : State} (hb : s.bud = 0) : tplPoll n s = { s with ph := .tplTimeout } := by
  unfold tplPoll
  rw [if_pos hb]

theorem polledBusy_succ (k : Nat) (s : State) : polledBusy 1 (polledBusy k s) = polledBusy (k + 1) s := by
  simp [polledBusy, List.replicate_succ', Nat.sub_sub]

/-- `k` busy polls within the budget, unrolled. -/
theorem runPhase_busy {n : Nat} {s : State} (k fuel : Nat) (hp : s.ph = .tplPoll) (hk : k ≤ s.bud)
    (h : ∀ i, i < k → s.env.pollAt i = .busy) :
    runPhase .tplPoll (tplPoll n) (k + fuel) s = runPhase .tplPoll (tplPoll n) fuel (polledBusy k s) := by
  induction k generalizing fuel with
  | zero => simp [polledBusy]
  | succ k ih =>
    rw [show k + 1 + fuel = k + (fuel + 1) by omega, ih (fuel + 1) (by omega) (fun i hi => h i (by omega)),
      runPhase_in (by exact hp)]
    have hbud : (polledBusy k s).bud ≠ 0 := by
      show s.bud - k ≠ 0
      omega
    have hans : (polledBusy k s).env.pollAt 0 = .busy := by
      show (s.env.afterPolls k).pollAt 0 = .busy
      rw [pollAt_afterPolls]
      exact h k (by omega)
    rw [tplPoll_busy hbud hans, polledBusy_succ]

/-- The poll loop when the slave never goes idle: BUD busy polls, then phase TPL_TIMEOUT (43_tpl_engine R92). -/
theorem tplPolls_timeout {n : Nat} {s : State} (hp : s.ph = .tplPoll) (h : ∀ i, i < s.bud → s.env.pollAt i = .busy) :
    tplPolls n s = { polledBusy s.bud s with ph := .tplTimeout } := by
  unfold tplPolls
  rw [runPhase_busy s.bud 1 hp le_rfl h, runPhase_in (by exact hp)]
  rw [tplPoll_spent (by show s.bud - s.bud = 0; omega)]
  rfl

/-- The poll loop when poll number `j`, counting from 0, is the first to answer idle, within the budget. -/
theorem tplPolls_idle {n : Nat} {s : State} (j : Nat) (hp : s.ph = .tplPoll) (hj : j < s.bud)
    (h : ∀ i, i < j → s.env.pollAt i = .busy) (hi : s.env.pollAt j = .idle) :
    tplPolls n s =
      { s with env := (s.env.afterPolls (j + 1)).afterData n, sArmed := false,
               rxw := Memory.writeList [] 0 ((s.env.afterPolls (j + 1)).sData n), bud := s.bud - j,
               trace := s.trace ++ List.replicate j (.sPoll .busy) ++ [.sPoll .idle], ph := .tplDecode } := by
  unfold tplPolls
  rw [show s.bud + 1 = j + ((s.bud - j) + 1) by omega, runPhase_busy j _ hp (by omega) h, runPhase_in (by exact hp)]
  have hbud : (polledBusy j s).bud ≠ 0 := by
    show s.bud - j ≠ 0
    omega
  have hans : (polledBusy j s).env.pollAt 0 = .idle := by
    show (s.env.afterPolls j).pollAt 0 = .idle
    rw [pollAt_afterPolls]
    exact hi
  rw [tplPoll_idle hbud hans]
  have : (polledBusy j s).env.afterPolls 1 = s.env.afterPolls (j + 1) := afterPolls_afterPolls _ _ _
  rw [this]
  rw [runPhase_out (by simp)]
  rfl

/-- Every run of the answers to the polls: either none of the first `B` is idle, or there is a first idle one. -/
theorem polls_cases (e : Env) (B : Nat) :
    (∀ i, i < B → e.pollAt i = .busy) ∨
      ∃ j, j < B ∧ (∀ i, i < j → e.pollAt i = .busy) ∧ e.pollAt j = .idle := by
  induction B with
  | zero => exact .inl fun i hi => by omega
  | succ B ih =>
    rcases ih with h | ⟨j, hj, h1, h2⟩
    · cases hB : e.pollAt B with
      | idle => exact .inr ⟨B, by omega, h, hB⟩
      | busy =>
        refine .inl fun i hi => ?_
        by_cases hiB : i = B
        · exact hiB ▸ hB
        · exact h i (by omega)
    · exact .inr ⟨j, by omega, h1, h2⟩

/-- Decoding `n` complete blocks into an empty RXF: element `k` is the decoding of block `k`. -/
theorem decodeBlocks_eq {rxw : Memory Byte} {g : Nat → Block} (count k : Nat) (rxf : Memory Frame)
    (h : ∀ i, k ≤ i → i < k + count → Memory.readBlock rxw (8 * i) = some (g i)) :
    decodeBlocks rxw count k rxf
      = Memory.writeList rxf k ((List.range count).map fun i => decodeBlock (g (k + i))) := by
  induction count generalizing k rxf with
  | zero => rfl
  | succ c ih =>
    rw [decodeBlocks, h k le_rfl (by omega), ih (k + 1) _ (fun i h1 h2 => h i (by omega) (by omega))]
    rw [List.range_succ_eq_map, List.map_cons, Memory.writeList, List.map_map]
    simp only [Nat.add_zero]
    congr 1
    refine List.map_congr_left fun i _ => ?_
    show decodeBlock (g (k + 1 + i)) = decodeBlock (g (k + (i + 1)))
    congr 2
    omega

end Sys2Proof.Machine
end

