-- ==== Sys2Proof/Laws/Invert.lean ====
section
/-! SUPPORT. The laws of the table and of the inverter's search (45_temp_inverter R111, R112). -/

namespace Sys2Proof.Machine

theorem tableFit_iff {c : Cfg} {t : Memory Word16} :
    tableFit c t = true ↔ 2 ≤ nt c ∧ heldBelow t (nt c) ∧ neverRising (t.map (fun p => p.2.toNat)) = true := by
  simp [tableFit, heldBelow, and_assoc]

theorem read_of_addresses {α : Type} {m : Memory α} {b n : Nat} (h : m.map Prod.fst = List.range' b n) (i : Nat) :
    m.read (b + i) = (m[i]?).map Prod.snd := by
  induction m generalizing b n i with
  | nil => simp
  | cons p rest ih =>
    obtain ⟨c, w⟩ := p
    cases n with
    | zero => simp at h
    | succ n =>
      rw [List.range'_succ, List.map_cons] at h
      obtain ⟨h1, h2⟩ := List.cons.inj h
      have h1 : c = b := h1
      subst h1
      cases i with
      | zero => simp [Memory.read]
      | succ i =>
        have hne : ¬ c = c + (i + 1) := by omega
        rw [Memory.read, if_neg hne, List.getElem?_cons_succ, ← ih h2 i]
        congr 1
        omega

/-- In a complete space cell `i` is the `i`-th of the list. -/
theorem heldBelow.read_eq {α : Type} {m : Memory α} {n : Nat} (h : heldBelow m n) (i : Nat) :
    m.read i = (m[i]?).map Prod.snd := by
  have := read_of_addresses (b := 0) (n := n) (m := m) (by rw [← List.range_eq_range']; exact h) i
  rwa [Nat.zero_add] at this

theorem heldBelow.length {α : Type} {m : Memory α} {n : Nat} (h : heldBelow m n) : m.length = n := by
  have := congrArg List.length (show m.map Prod.fst = List.range n from h)
  simpa using this

theorem neverRising_step {l : List Nat} (h : neverRising l = true) {i : Nat} (hi : i + 1 < l.length) :
    l[i + 1] ≤ l[i] := by
  induction l generalizing i with
  | nil => simp at hi
  | cons a rest ih =>
    cases rest with
    | nil => simp at hi
    | cons b rest =>
      simp only [neverRising, Bool.and_eq_true, decide_eq_true_eq] at h
      cases i with
      | zero => exact h.1
      | succ i =>
        have := ih h.2 (i := i) (by simpa using hi)
        simpa using this

theorem neverRising_of_step {l : List Nat} (h : ∀ i, (hi : i + 1 < l.length) → l[i + 1] ≤ l[i]) :
    neverRising l = true := by
  induction l with
  | nil => rfl
  | cons a rest ih =>
    cases rest with
    | nil => rfl
    | cons b rest =>
      simp only [neverRising, Bool.and_eq_true, decide_eq_true_eq]
      refine ⟨h 0 (by simp), ih fun i hi => ?_⟩
      have := h (i + 1) (by simpa using hi)
      simpa using this

theorem entryAt_eq {s : State} (h : heldBelow s.tbl (nt s.cfg)) {i : Nat} (hi : i < nt s.cfg) :
    entryAt s i = (s.tbl.map (fun p => p.2.toNat))[i]'(by simpa [h.length] using hi) := by
  unfold entryAt
  rw [h.read_eq i]
  have hl : i < s.tbl.length := by rw [h.length]; exact hi
  rw [List.getElem?_eq_getElem hl]
  simp

/-- Neighbouring entries of a fit table never rise (44_temp_table R105). -/
theorem entryAt_succ_le {s : State} (h : tableFit s.cfg s.tbl = true) {i : Nat} (hi : i + 1 < nt s.cfg) :
    entryAt s (i + 1) ≤ entryAt s i := by
  obtain ⟨_, hh, hr⟩ := tableFit_iff.1 h
  rw [entryAt_eq hh hi, entryAt_eq hh (by omega)]
  exact neverRising_step hr (by simpa [hh.length] using hi)

/-- The entries of a fit table never rise. -/
theorem entryAt_antitone {s : State} (h : tableFit s.cfg s.tbl = true) {i j : Nat} (hij : i ≤ j) (hj : j < nt s.cfg) :
    entryAt s j ≤ entryAt s i := by
  induction j with
  | zero => rw [Nat.le_zero.1 hij]
  | succ j ih =>
    by_cases he : i = j + 1
    · rw [he]
    · exact le_trans (entryAt_succ_le h hj) (ih (by omega) (by omega))

theorem invBisect_adjacent {raw : Nat} {s : State} (h : s.sl + 1 = s.sr) :
    invBisect raw s = { s with ph := .invInterp } := if_pos h

theorem invBisect_right {raw : Nat} {s : State} (h : s.sl + 1 ≠ s.sr) (hp : entryAt s ((s.sl + s.sr) / 2) ≤ raw) :
    invBisect raw s = { s with sm := (s.sl + s.sr) / 2, sr := (s.sl + s.sr) / 2 } := by
  unfold invBisect; rw [if_neg h, if_pos hp]

theorem invBisect_left {raw : Nat} {s : State} (h : s.sl + 1 ≠ s.sr) (hp : ¬ entryAt s ((s.sl + s.sr) / 2) ≤ raw) :
    invBisect raw s = { s with sm := (s.sl + s.sr) / 2, sl := (s.sl + s.sr) / 2 } := by
  unfold invBisect; rw [if_neg h, if_neg hp]

/-- The bisection from a bracket that contains RAW (R111, R112): it ends at two adjacent entries that bracket RAW. -/
theorem runPhase_bisect {raw : Nat} {s : State} (fuel : Nat) (hp : s.ph = .invBisect) (hlr : s.sl < s.sr)
    (hl : raw ≤ entryAt s s.sl) (hr : entryAt s s.sr ≤ raw) (hs : 0 < s.sl → raw < entryAt s s.sl)
    (hf : s.sr - s.sl ≤ fuel) :
    ∃ l m, runPhase .invBisect (invBisect raw) fuel s = { s with sl := l, sr := l + 1, sm := m, ph := .invInterp } ∧
      s.sl ≤ l ∧ l < s.sr ∧ raw ≤ entryAt s l ∧ entryAt s (l + 1) ≤ raw ∧ (0 < l → raw < entryAt s l) := by
  induction fuel generalizing s with
  | zero => omega
  | succ fuel ih =>
    rw [runPhase_in hp]
    by_cases hadj : s.sl + 1 = s.sr
    · rw [invBisect_adjacent hadj, runPhase_out (by simp)]
      refine ⟨s.sl, s.sm, ?_, le_rfl, by omega, hl, hadj ▸ hr, hs⟩
      rw [hadj]
    · by_cases hpr : entryAt s ((s.sl + s.sr) / 2) ≤ raw
      · rw [invBisect_right hadj hpr]
        obtain ⟨l, m, h1, h2, h3, h4, h5, h6⟩ := ih (s := { s with sm := (s.sl + s.sr) / 2, sr := (s.sl + s.sr) / 2 })
          hp (by show s.sl < (s.sl + s.sr) / 2; omega) hl hpr hs (by show (s.sl + s.sr) / 2 - s.sl ≤ fuel; omega)
        have h3' : l < (s.sl + s.sr) / 2 := h3
        exact ⟨l, m, h1, h2, by omega, h4, h5, h6⟩
      · rw [invBisect_left hadj hpr]
        obtain ⟨l, m, h1, h2, h3, h4, h5, h6⟩ := ih (s := { s with sm := (s.sl + s.sr) / 2, sl := (s.sl + s.sr) / 2 })
          hp (by show (s.sl + s.sr) / 2 < s.sr; omega)
          (by show raw ≤ entryAt s ((s.sl + s.sr) / 2); omega) hr
          (fun _ => by show raw < entryAt s ((s.sl + s.sr) / 2); omega)
          (by show s.sr - (s.sl + s.sr) / 2 ≤ fuel; omega)
        have h2' : (s.sl + s.sr) / 2 ≤ l := h2
        exact ⟨l, m, h1, by omega, h3, h4, h5, h6⟩

/-- The three ways TINV goes from its issued state (R109 to R115). -/
theorem invRun_cases {raw : Nat} {s : State} (ht : tableFit s.cfg s.tbl = true) :
    (raw < entryAt s (nt s.cfg - 1) ∧ invRun raw s = reading (10 * s.cfg.tMax) false s ∨
     ¬ raw < entryAt s (nt s.cfg - 1) ∧ entryAt s 0 < raw ∧ invRun raw s = reading (10 * s.cfg.tMin) false s) ∨
    ∃ l m, l + 1 < nt s.cfg ∧ raw ≤ entryAt s l ∧ entryAt s (l + 1) ≤ raw ∧ (0 < l → raw < entryAt s l) ∧
      invRun raw s = invInterp raw { s with sl := l, sr := l + 1, sm := m, ph := .invInterp } := by
  obtain ⟨h2, -, -⟩ := tableFit_iff.1 ht
  by_cases hb : raw < entryAt s (nt s.cfg - 1)
  · left; left
    refine ⟨hb, ?_⟩
    unfold invRun invRange
    rw [if_pos hb]
    rfl
  · by_cases ha : entryAt s 0 < raw
    · left; right
      refine ⟨hb, ha, ?_⟩
      unfold invRun invRange
      rw [if_neg hb, if_pos ha]
      rfl
    · right
      have hstart : invRange raw s = { s with sl := 0, sr := nt s.cfg - 1, ph := .invBisect } := by
        unfold invRange
        rw [if_neg hb, if_neg ha]
      obtain ⟨l, m, h1, -, h3, h4, h5, h6⟩ :=
        runPhase_bisect (raw := raw) (s := { s with sl := 0, sr := nt s.cfg - 1, ph := .invBisect }) (nt s.cfg) rfl
          (by show 0 < nt s.cfg - 1; omega) (by show raw ≤ entryAt s 0; omega)
          (by show entryAt s (nt s.cfg - 1) ≤ raw; omega) (fun h => absurd h (Nat.lt_irrefl 0))
          (by show nt s.cfg - 1 - 0 ≤ nt s.cfg; omega)
      refine ⟨l, m, ?_, h4, h5, h6, ?_⟩
      · have h3' : l < nt s.cfg - 1 := h3
        omega
      · unfold invRun
        rw [hstart]
        simp only [if_true]
        unfold invBisects
        rw [h1]
        simp

end Sys2Proof.Machine
end

