-- ==== Sys2Proof/Laws/Numerics.lean ====
section
/-! SUPPORT. What a legal temperature model gives at each index (00_scope R5, 44_temp_table R103), the rounding, the
agreement of a graph's computed entries with the exact reals, and the reads of a filled table. -/

namespace Sys2Proof.Machine

/-! ### Rounding -/

theorem roundHalfAway_mono {x y : ℝ} (hx : 0 ≤ x) (h : x ≤ y) : roundHalfAway x ≤ roundHalfAway y := by
  unfold roundHalfAway
  rw [if_pos hx, if_pos (le_trans hx h)]
  exact Int.floor_le_floor (by linarith)

/-- Rounding a rational number is rounding the real number it is. -/
theorem roundHalfAway_cast (q : Rat) : roundHalfAway (q : ℝ) = roundHalfAway q := by
  unfold roundHalfAway
  have h1 : ((q : ℝ) + 1 / 2) = ((q + 1 / 2 : Rat) : ℝ) := by push_cast; ring
  have h2 : (-(q : ℝ) + 1 / 2) = ((-q + 1 / 2 : Rat) : ℝ) := by push_cast; ring
  rw [h1, h2, Rat.floor_cast, Rat.floor_cast]
  simp only [Rat.cast_nonneg]

theorem betaEntry_cast (a b c e : Rat) : betaEntry (a : ℝ) b c e = betaEntry a b c e := by
  unfold betaEntry
  rw [← roundHalfAway_cast]
  push_cast
  rfl

theorem betaArg_cast (b r : Rat) (t : Int) : betaArg (b : ℝ) r t = ((betaArg b r t : Rat) : ℝ) := by
  unfold betaArg kelvin0
  push_cast
  rfl

/-! ### Constants and graphs -/

theorem value_of_isRat {x : RealConst} (h : x.isRat = true) : x.value = (x.toRat : ℝ) := by
  cases x with
  | rat q => rfl
  | free k => cases h

theorem strictlyFalling_step {l : List Rat} (h : strictlyFalling l = true) {i : Nat} (hi : i + 1 < l.length) :
    l[i + 1] < l[i] := by
  induction l generalizing i with
  | nil => simp at hi
  | cons a rest ih =>
    cases rest with
    | nil => simp at hi
    | cons b rest =>
      simp only [strictlyFalling, Bool.and_eq_true, decide_eq_true_eq] at h
      cases i with
      | zero => exact h.1
      | succ i =>
        have := ih h.2 (i := i) (by simpa using hi)
        simpa only [List.getElem_cons_succ] using this

/-- What `graphLegal` checks, as propositions. -/
structure GraphFacts (c : Cfg) (points : List (Rat × Rat)) : Prop where
  beta : c.beta.isRat = true
  rRef : c.rRef.isRat = true
  tRef : c.tRef.isRat = true
  rPu : c.rPu.isRat = true
  scale : c.codeScale.isRat = true
  args : points.map Prod.fst = (List.range (nt c)).map (fun i => betaArg c.beta.toRat c.tRef.toRat (tempAt c i))
  falling : strictlyFalling (points.map Prod.snd) = true
  legal : ∀ p ∈ points, expPointLegal p = true

theorem graphFacts {c : Cfg} {points : List (Rat × Rat)} (h : graphLegal c points = true) : GraphFacts c points := by
  simp only [graphLegal, Bool.and_eq_true, beq_iff_eq, List.all_eq_true] at h
  obtain ⟨⟨⟨⟨⟨⟨⟨h1, h2⟩, h3⟩, h4⟩, h5⟩, h6⟩, h7⟩, h8⟩ := h
  exact ⟨h1, h2, h3, h4, h5, h6, h7, h8⟩

theorem GraphFacts.length {c : Cfg} {points : List (Rat × Rat)} (h : GraphFacts c points) : points.length = nt c := by
  simpa using congrArg List.length h.args

/-- Point `i` of a legal graph: its argument is that of table index `i`. -/
theorem GraphFacts.arg {c : Cfg} {points : List (Rat × Rat)} (h : GraphFacts c points) {i : Nat} (hi : i < points.length) :
    ((points[i].1 : Rat) : ℝ) = expArg c i := by
  have hm : (points.map Prod.fst)[i]? =
      ((List.range (nt c)).map (fun i => betaArg c.beta.toRat c.tRef.toRat (tempAt c i)))[i]? := by rw [h.args]
  rw [List.getElem?_map, List.getElem?_map, List.getElem?_range (by rw [← h.length]; exact hi),
    List.getElem?_eq_getElem hi] at hm
  have hm' : points[i].1 = betaArg c.beta.toRat c.tRef.toRat (tempAt c i) := by simpa using hm
  rw [hm', expArg, value_of_isRat h.beta, value_of_isRat h.tRef, betaArg_cast]

/-! ### The exponential at the table's indices, however it is given -/

/-- The arguments fall strictly with the temperature (R105). -/
theorem ThermalConstraints.expArg_falls {c : Cfg} (h : ThermalConstraints c) (i : Nat) : expArg c (i + 1) < expArg c i := by
  have hlow : (-273 : ℝ) ≤ ((tempAt c i : Int) : ℝ) := by
    have h1 : (-273 : Int) ≤ tempAt c i := by have := h.low; unfold tempAt; omega
    exact_mod_cast h1
  have hstep : ((tempAt c (i + 1) : Int) : ℝ) = ((tempAt c i : Int) : ℝ) + 1 := by
    unfold tempAt; push_cast; ring
  unfold expArg betaArg
  rw [hstep]
  have hk : (0 : ℝ) < ((tempAt c i : Int) : ℝ) + kelvin0 := by unfold kelvin0; linarith
  have hr : 1 / (((tempAt c i : Int) : ℝ) + 1 + kelvin0) < 1 / (((tempAt c i : Int) : ℝ) + kelvin0) :=
    one_div_lt_one_div_of_lt hk (by linarith)
  exact mul_lt_mul_of_pos_left (by linarith) h.beta

theorem expAt_graph {c : Cfg} {points : List (Rat × Rat)} (hc : c.numerics = .graph points) {i : Nat}
    (hi : i < points.length) : expAt c i = ((points[i].2 : Rat) : ℝ) := by
  unfold expAt
  rw [hc]
  simp [List.getElem?_eq_getElem hi]

/-- The value used at index `i` is that of `numerics.exp` at the argument of index `i`. -/
theorem ThermalConstraints.expValue {c : Cfg} (h : ThermalConstraints c) {i : Nat} (hi : i < nt c) :
    ExpValue c (expArg c i) (expAt c i) := by
  have hx := h.exp
  unfold ExpConstraints at hx
  unfold ExpValue
  split at hx
  · rename_i points hc
    have hg := graphFacts hx
    have hi' : i < points.length := by rw [hg.length]; exact hi
    rw [expAt_graph hc hi']
    exact ⟨points[i], List.getElem_mem hi', hg.arg hi', rfl⟩
  · rename_i f es hc
    unfold expAt
    simp only [hc]

theorem ThermalConstraints.exp_pos {c : Cfg} (h : ThermalConstraints c) {i : Nat} (hi : i < nt c) : 0 < expAt c i := by
  have hx := h.exp
  unfold ExpConstraints at hx
  split at hx
  · rename_i points hc
    have hg := graphFacts hx
    have hi' : i < points.length := by rw [hg.length]; exact hi
    rw [expAt_graph hc hi']
    have := hg.legal _ (List.getElem_mem hi')
    simp only [expPointLegal, Bool.and_eq_true, decide_eq_true_eq] at this
    exact_mod_cast this.1.1.1
  · rename_i f es hc
    unfold expAt
    simp only [hc]
    exact hx.2.2 _

theorem ThermalConstraints.exp_falls {c : Cfg} (h : ThermalConstraints c) {i : Nat} (hi : i + 1 < nt c) :
    expAt c (i + 1) < expAt c i := by
  have hx := h.exp
  unfold ExpConstraints at hx
  split at hx
  · rename_i points hc
    have hg := graphFacts hx
    have hi' : i + 1 < points.length := by rw [hg.length]; exact hi
    rw [expAt_graph hc hi', expAt_graph hc (by omega)]
    have := strictlyFalling_step hg.falling (i := i) (by simpa using hi')
    simp only [List.getElem_map] at this
    exact_mod_cast this
  · rename_i f es hc
    unfold expAt
    simp only [hc]
    exact hx.2.1 (h.expArg_falls i)

theorem ThermalConstraints.exp_zero {c : Cfg} (h : ThermalConstraints c) {i : Nat} (hi : i < nt c)
    (h0 : expArg c i = 0) : expAt c i = 1 := by
  have hx := h.exp
  unfold ExpConstraints at hx
  split at hx
  · rename_i points hc
    have hg := graphFacts hx
    have hi' : i < points.length := by rw [hg.length]; exact hi
    rw [expAt_graph hc hi']
    have ha : points[i].1 = 0 := by
      have := hg.arg hi'
      rw [h0] at this
      exact_mod_cast this
    have := hg.legal _ (List.getElem_mem hi')
    simp only [expPointLegal, Bool.and_eq_true, decide_eq_true_eq] at this
    exact_mod_cast this.1.2 ha
  · rename_i f es hc
    unfold expAt
    simp only [hc]
    rw [h0]
    exact hx.1

theorem ThermalConstraints.resistance_pos {c : Cfg} (h : ThermalConstraints c) {i : Nat} (hi : i < nt c) :
    0 < c.rRef.value * expAt c i := mul_pos h.rRef (h.exp_pos hi)

/-! ### The entries -/

/-- A graph's computed entries are those of the exact reals, and a legal configuration's parameter table is too. -/
theorem entryCode_exact {c : Cfg} (h : ThermalConstraints c) (ht : TableExact c) {i : Nat} (hi : i < nt c) :
    entryCode c i = BitVec.ofInt 16 (exactEntry c i) := by
  have hx := h.exp
  unfold ExpConstraints at hx
  unfold TableExact at ht
  split at hx
  · rename_i points hc
    have hg := graphFacts hx
    unfold entryCode exactEntry expAt
    simp only [hc]
    rw [value_of_isRat hg.rRef, value_of_isRat hg.rPu, value_of_isRat hg.scale, betaEntry_cast]
  · rename_i f es hc
    simp only [hc] at ht
    unfold entryCode
    simp only [hc]
    rw [ht, List.getElem?_map, List.getElem?_range hi]
    rfl

/-- What TBLD's loop leaves in each cell. -/
theorem read_fillTable (c : Cfg) (count i : Nat) (t : Memory Word16) (a : Nat) :
    Memory.read (fillTable c count i t) a
      = if i ≤ a ∧ a < i + count then some (entryCode c a) else Memory.read t a := by
  induction count generalizing i t with
  | zero =>
    have : ¬(i ≤ a ∧ a < i) := by omega
    simp [fillTable, this]
  | succ n ih =>
    rw [fillTable, ih, Memory.read_write]
    by_cases h1 : a = i
    · subst h1; simp
    · by_cases h2 : i ≤ a ∧ a < i + (n + 1)
      · rw [if_pos h2, if_pos (by omega)]
      · rw [if_neg h2, if_neg (by omega), if_neg h1]

/-- TBLD's loop from an empty table lists exactly the indices it has written. -/
theorem heldBelow_fillTable (c : Cfg) (count i : Nat) (t : Memory Word16) (h : heldBelow t i) :
    heldBelow (fillTable c count i t) (i + count) := by
  induction count generalizing i t with
  | zero => simpa [fillTable] using h
  | succ n ih =>
    rw [fillTable, show i + (n + 1) = i + 1 + n by omega]
    exact ih _ _ (heldBelow_write h _)

/-! ### Which configurations are legal -/

theorem CfgLegal.frames {c : Cfg} (h : CfgLegal c) : 1 ≤ c.maxFrames ∧ c.maxFrames ≤ 65535 := by
  have := h.transport
  simp only [transportLegal, Bool.and_eq_true, decide_eq_true_eq] at this
  exact ⟨this.1.2, this.2⟩

/-- With rational constants and a graph, the checks on plain data are the whole of the constraints. -/
theorem cfgLegal_of_graph {c : Cfg} {points : List (Rat × Rat)} (hc : c.numerics = .graph points)
    (h : thermalLegal c = true) (ht : transportLegal c = true) : CfgLegal c := by
  simp only [thermalLegal, numericsLegal, hc, Bool.and_eq_true, decide_eq_true_eq] at h
  obtain ⟨⟨⟨⟨⟨⟨⟨⟨h1, h2⟩, h3⟩, h4⟩, h5⟩, h6⟩, h7⟩, h8⟩, h9⟩ := h
  have hg := graphFacts h9
  have key : ∀ {x : RealConst} {p : Rat → Bool}, x.isRat = true → x.check p = true → p x.toRat = true := by
    intro x p hx hp
    cases x with
    | rat q => exact hp
    | free k => cases hx
  have b := key hg.beta h4
  have r := key hg.rRef h5
  have t := key hg.tRef h6
  have u := key hg.rPu h7
  have s := key hg.scale h8
  simp only [Bool.and_eq_true, decide_eq_true_eq] at b r t u s
  refine ⟨⟨h1, h2, h3, ?_, ?_, ?_, ?_, ?_, ?_, ?_⟩, ?_, ht⟩
  · rw [value_of_isRat hg.beta]; exact_mod_cast b
  · rw [value_of_isRat hg.rRef]; exact_mod_cast r
  · rw [value_of_isRat hg.tRef]
    have : ((c.tRef.toRat + kelvin0 : Rat) : ℝ) = (c.tRef.toRat : ℝ) + kelvin0 := by unfold kelvin0; push_cast; rfl
    rw [← this]; exact_mod_cast t
  · rw [value_of_isRat hg.rPu]; exact_mod_cast u
  · rw [value_of_isRat hg.scale]; exact_mod_cast s.1
  · rw [value_of_isRat hg.scale]; exact_mod_cast s.2
  · unfold ExpConstraints; rw [hc]; exact h9
  · unfold TableExact; rw [hc]; trivial

/-- Every temperature model over the reals that meets its constraints, the exponential itself among them, is that of a
legal configuration. -/
theorem cfgLegal_exact {c : Cfg} {f : ExpFn} {entries : List Word16} (hc : c.numerics = .exact f entries)
    (h : ThermalConstraints c) (ht : transportLegal c = true) : ∃ es, CfgLegal { c with numerics := .exact f es } := by
  refine ⟨(List.range (nt c)).map (fun i => BitVec.ofInt 16 (exactEntry c i)), ?_, ?_, ht⟩
  · have hx := h.exp
    unfold ExpConstraints at hx
    rw [hc] at hx
    exact { h with exp := hx }
  · show _ = (List.range (nt c)).map _
    refine List.map_congr_left fun i _ => ?_
    unfold exactEntry expAt
    rw [hc]
    rfl

/-- The exponential itself meets what R103 asks. -/
theorem natural_legal : ExpFn.natural.fn 0 = 1 ∧ StrictMono ExpFn.natural.fn ∧ ∀ x, 0 < ExpFn.natural.fn x :=
  ⟨Real.exp_zero, Real.exp_strictMono, Real.exp_pos⟩

end Sys2Proof.Machine
end

