-- ==== Sys2Proof/Laws/PerInstr.lean ====
section
/-! SUPPORT. Families of statements made per operation. -/

namespace Sys2Proof.Laws.Encoding

/-- The operation's words are one well-formed command byte (30_encoding R59), and the decoder reads the operation back
from them whatever follows. -/
def Statement (i : Instr) : Prop :=
  cmdWellFormed (encodeCmd i) = true ∧ (encode i).length = 1 ∧
    ∀ rest : List Byte, decode (encode i ++ rest) = .ok (i, rest)

theorem enc : Statement .enc := ⟨by decide, rfl, fun _ => rfl⟩
theorem dec : Statement .dec := ⟨by decide, rfl, fun _ => rfl⟩
theorem spix : Statement .spix := ⟨by decide, rfl, fun _ => rfl⟩
theorem tplx : Statement .tplx := ⟨by decide, rfl, fun _ => rfl⟩
theorem tbld : Statement .tbld := ⟨by decide, rfl, fun _ => rfl⟩
theorem tinv : Statement .tinv := ⟨by decide, rfl, fun _ => rfl⟩

end Sys2Proof.Laws.Encoding
end

