-- ==== Sys2Proof/Laws/Runs.lean ====
section
/-! SUPPORT. Runs of the sequencer put together, and a looping phase run turn by turn. -/

namespace Sys2Proof.Machine

theorem seqRun_one {s t : State} (h : seqStep s = .next t) : seqRun 1 s = .next t := by
  unfold seqRun
  rw [h]
  rfl

theorem seqRun_append {a b : Nat} {s s' t : State} (h1 : seqRun a s = .next s') (h2 : seqRun b s' = .next t) :
    seqRun (a + b) s = .next t := by
  induction a generalizing s with
  | zero => cases h1; simpa using h2
  | succ a ih =>
    rw [show a + 1 + b = (a + b) + 1 by omega]
    unfold seqRun at h1 ⊢
    cases hs : seqStep s with
    | next x => rw [hs] at h1; exact ih h1
    | fault x => rw [hs] at h1; cases h1
    | refused x => rw [hs] at h1; cases h1

/-- Where one phase of the sequencer is one turn of a loop, and keeps `P`, the loop is a run of the sequencer. -/
theorem seqRun_runPhase {p : Phase} {body : State → State} (P : State → Prop)
    (hb : ∀ s, P s → s.ph = p → seqStep s = .next (body s) ∧ P (body s)) (fuel : Nat) (s : State) (h : P s) :
    P (runPhase p body fuel s) ∧ ∃ k, k ≤ fuel ∧ seqRun k s = .next (runPhase p body fuel s) := by
  induction fuel generalizing s with
  | zero => exact ⟨h, 0, le_rfl, rfl⟩
  | succ fuel ih =>
    by_cases hp : s.ph = p
    · rw [runPhase_in hp]
      obtain ⟨a, k, hk, e⟩ := ih (body s) (hb s h hp).2
      exact ⟨a, 1 + k, by omega, seqRun_append (seqRun_one (hb s h hp).1) e⟩
    · rw [runPhase_out hp]
      exact ⟨h, 0, by omega, rfl⟩

end Sys2Proof.Machine
end

