-- ==== Sys2Proof/Tests/Slice0.lean ====
section
/-! SUPPORT. Tests: ill-formed commands, the decoding of each command byte, a few one-step vectors of
95_test_vectors, and for every statement with hypotheses a state that meets them (each clause, at its boundary). -/

namespace Sys2Proof.Tests

open Sys2Proof.Machine

/-! ### Small states -/

/-- `12 34 56 78 0F` (95 S1). -/
def sourceFrame : Frame := ⟨0x12#8, 0x34#8, 0x56#8, 0x78#8, 0x0F#8⟩

/-- `78 56 34 12 0F 00 00 00` (95 S1). -/
def sourceBlock : Block := ⟨0x78#8, 0x56#8, 0x34#8, 0x12#8, 0x0F#8, 0#8, 0#8, 0#8⟩

/-- `04 03 02 01 05 EE EE EE` (95 part 2.3, second half of D2). -/
def paddedBlock : Block := ⟨0x04#8, 0x03#8, 0x02#8, 0x01#8, 0x05#8, 0xEE#8, 0xEE#8, 0xEE#8⟩

/-- The transport of 95 part 2.3 (BUDGET0 = 3, SETTLE_US = 3, MAX_FRAMES = 3) over a table of two temperatures. -/
def tinyBase (m : Mode) : Cfg :=
  { referenceBase with
    mode := m, commTimeoutMs := 3, coreClkHz := 1000, tMin := 0, tMax := 1, tRef := .rat 0, rRef := .rat 1,
    rPu := .rat 1, codeScale := .rat 1000 }

/-- The same with an exponential that is 1 at 0 and 9/10 at the argument of 1 degree C. -/
def tiny (m : Mode) : Cfg :=
  { tinyBase m with numerics := .graph [(betaArg 3900 0 0, 1), (betaArg 3900 0 1, 9 / 10)] }

/-- The same constants with the exponential itself and the table it gives. -/
def natural (m : Mode) (entries : List Word16) : Cfg := { tinyBase m with numerics := .exact .natural entries }

/-- After reset, with every operand register written. -/
def loaded (m : Mode) : State :=
  { State.resetWith (tiny m) with
    txf := some sourceFrame, nfr := some 2#16, win := some sourceBlock, raw := some 500#16 }

/-- `loaded` with the environment's answers in order. -/
def scripted (m : Mode) (arm : List ArmAns) (xfer : List XferAns) (poll : List PollAns) (data : List Block) : State :=
  { loaded m with env := { arm := arm, xfer := xfer, poll := poll, data := data, tick := 0 } }

/-- A built table, given by its entries from `T_MIN` on, and RAW. -/
def tabled (tMin tMax : Int) (entries : List Nat) (raw : Nat) : State :=
  { loaded .spi with
    cfg := { tiny .spi with tMin := tMin, tMax := tMax }, status := 0x20#8, raw := some (BitVec.ofNat 16 raw),
    tbl := (entries.zipIdx 0).map (fun p => (p.2, BitVec.ofNat 16 p.1)) }

/-- `loaded` with one host access waiting. -/
def asked (m : Mode) (a : HostAccess) : State := { loaded m with host := [a] }

/-- SPIX in progress, phase SPI_XFER. -/
def busySpi : State := { loaded .spi with status := 0x01#8, ph := .spiXfer }

/-- What a part of the next state is, where the answer is a next state. -/
def part {α : Type} (a : Answer) (f : State → α) : Option α :=
  match a with
  | .next t => some (f t)
  | .fault _ => none
  | .refused _ => none

/-- The name of a refusal, where the answer is one. -/
def refusal (a : Answer) : Option Refusal :=
  match a with
  | .next _ => none
  | .fault _ => none
  | .refused r => some r

theorem next_of_part {a : Answer} (h : (part a fun _ => ()) = some ()) : ∃ t, a = .next t := by
  cases a with
  | next t => exact ⟨t, rfl⟩
  | fault r => cases h
  | refused r => cases h

theorem next_of_part_eq {α : Type} {a : Answer} {f : State → α} {v : α} (h : part a f = some v) :
    ∃ t, a = .next t ∧ f t = v := by
  cases a with
  | next t => exact ⟨t, rfl, Option.some.inj h⟩
  | fault r => cases h
  | refused r => cases h

theorem refused_of_refusal {a : Answer} {r : Refusal} (h : refusal a = some r) : a = .refused r := by
  cases a with
  | next t => cases h
  | fault r => cases h
  | refused r' => rw [Option.some.inj h]

/-! ### Well-formedness and decoding (30_encoding R59, R60, R65, R66) -/

theorem test_reserved_bits_ill_formed : cmdWellFormed 0x08#8 = false ∧ cmdWellFormed 0x83#8 = false := by decide
theorem test_code_zero_ill_formed : cmdWellFormed 0x00#8 = false := by decide
theorem test_code_seven_ill_formed : cmdWellFormed 0x07#8 = false := by decide
theorem test_spix_ill_formed_in_tpl :
    Instr.wellFormed .tplHwcs .spix = false ∧ Instr.wellFormed .tplSwcs .spix = false := by decide
theorem test_tplx_ill_formed_in_spi : Instr.wellFormed .spi .tplx = false := by decide
theorem test_commands_well_formed :
    ∀ c : Byte, 1 ≤ c.toNat → c.toNat ≤ 6 → cmdWellFormed c = true := by decide

/-- R60: reserved bits 00000, then the code 001 to 110, written out bit by bit. -/
theorem test_enc_word : decode [0b00000001#8] = .ok (.enc, []) := by decide
theorem test_dec_word : decode [0b00000010#8] = .ok (.dec, []) := by decide
theorem test_spix_word : decode [0b00000011#8] = .ok (.spix, []) := by decide
theorem test_tplx_word : decode [0b00000100#8] = .ok (.tplx, []) := by decide
theorem test_tbld_word : decode [0b00000101#8] = .ok (.tbld, []) := by decide
theorem test_tinv_word : decode [0b00000110#8] = .ok (.tinv, []) := by decide
theorem test_no_byte_is_no_command : decode [] = .error .noByte := by decide
theorem test_table_words :
    (List.range 9).map (decodeTableWord 8)
      = [none, some .enc, some .dec, some .spix, some .tplx, some .tbld, some .tinv, none, none] := by decide

/-! ### Operations -/

/-- V-C1. -/
theorem test_enc_source_bytes :
    part (exec .enc (loaded .spi)) (fun t => (t.wout, t.status)) = some (some sourceBlock, 0x02#8) := by
  decide +kernel

/-- V-C4: byte 4 is not part of the reversal; INRANGE and TBL_VALID stay. -/
theorem test_enc_fifth_byte_stays :
    part (exec .enc { loaded .spi with txf := some ⟨0xA1#8, 0xB2#8, 0xC3#8, 0xD4#8, 0xE5#8⟩, status := 0x32#8 })
        (fun t => (t.wout, t.status))
      = some (some ⟨0xD4#8, 0xC3#8, 0xB2#8, 0xA1#8, 0xE5#8, 0#8, 0#8, 0#8⟩, 0x32#8) := by
  decide +kernel

/-- V-C7: non-zero padding is ignored. -/
theorem test_dec_ignores_padding :
    part (exec .dec { loaded .spi with win := some ⟨1#8, 2#8, 3#8, 4#8, 5#8, 6#8, 7#8, 8#8⟩ })
        (fun t => (t.fout, t.status))
      = some (some ⟨4#8, 3#8, 2#8, 1#8, 5#8⟩, 0x02#8) := by
  decide +kernel

/-- V-S2: the response differs from the request and its padding is not zero. -/
theorem test_spix_other_response :
    part (exec .spix (scripted .spi [] [.ok ⟨0x44#8, 0x33#8, 0x22#8, 0x11#8, 0x55#8, 0xAA#8, 0xBB#8, 0xCC#8⟩] [] []))
        (fun t => (Memory.read t.rxf 0, t.rxn, t.status))
      = some (some ⟨0x11#8, 0x22#8, 0x33#8, 0x44#8, 0x55#8⟩, 1#16, 0x02#8) := by
  decide +kernel

/-- V-S4: any failure but a timeout is BusBusy, and RXF[0] holds no value. -/
theorem test_spix_fail :
    part (exec .spix (scripted .spi [] [.fail] [] []))
        (fun t => (Memory.read t.rxf 0, t.rxn, t.status, t.trace))
      = some (none, 0#16, 0x0A#8, [.mXfer sourceBlock .full .fail]) := by
  decide +kernel

/-- V-X2: two frames, one busy poll, software chip-select. -/
theorem test_tplx_two_frames :
    part (exec .tplx (scripted .tplSwcs [.armOk] [.ok default] [.busy, .idle] [sourceBlock, paddedBlock]))
        (fun t => (t.rxf, t.rxn, t.status, t.bud, t.trace))
      = some ([(0, sourceFrame), (1, ⟨1#8, 2#8, 3#8, 4#8, 5#8⟩)], 2#16, 0x02#8, 2,
          [.sArm 16 .armOk, .csAssert, .mXfer sourceBlock .txOnly (.ok none), .delayUs 3, .csDeassert, .sPoll .busy,
            .sPoll .idle]) := by
  decide +kernel

/-- V-X6: exactly BUDGET0 polls, no fourth, then one abort. -/
theorem test_tplx_poll_timeout :
    part (exec .tplx (scripted .tplHwcs [.armOk] [.ok default] [.busy, .busy, .busy] []))
        (fun t => (t.rxn, t.status, t.bud, t.sArmed, t.trace))
      = some (0#16, 0x06#8, 0, false,
          [.sArm 16 .armOk, .mXfer sourceBlock .txOnly (.ok none), .sPoll .busy, .sPoll .busy, .sPoll .busy,
            .sAbort]) := by
  decide +kernel

/-- The reference table of V-B2, eight entries per row of the spec. -/
def referenceTable : List Nat :=
  [32197, 32156, 32112, 32065, 32015, 31963, 31907, 31848, 31786, 31721, 31651, 31578, 31501, 31420, 31335, 31245] ++
  [31151, 31052, 30948, 30839, 30725, 30606, 30482, 30351, 30215, 30074, 29926, 29772, 29612, 29446, 29273, 29094] ++
  [28909, 28717, 28518, 28312, 28100, 27881, 27656, 27423, 27185, 26939, 26687, 26429, 26164, 25894, 25617, 25334] ++
  [25046, 24752, 24453, 24148, 23839, 23525, 23207, 22885, 22559, 22229, 21896, 21561, 21223, 20882, 20540, 20196] ++
  [19851, 19505, 19158, 18811, 18465, 18118, 17773, 17428, 17085, 16743, 16403, 16066, 15731, 15399, 15069, 14743] ++
  [14420, 14101, 13785, 13474, 13166, 12863, 12564, 12270, 11980, 11695, 11415, 11139, 10869, 10603, 10343, 10088] ++
  [9837, 9592, 9352, 9117, 8887, 8661, 8441, 8226, 8016, 7811, 7610, 7415, 7224, 7037, 6855, 6678] ++
  [6505, 6337, 6172, 6012, 5856, 5705, 5557, 5413, 5272, 5136, 5003, 4874, 4748, 4625, 4506, 4390] ++
  [4278, 4168, 4061, 3957, 3857, 3758, 3663, 3570, 3480, 3392, 3307, 3224, 3143, 3065, 2988, 2914] ++
  [2842, 2772, 2703, 2637, 2573, 2510, 2449, 2389, 2332, 2275, 2221, 2168, 2116, 2066, 2017, 1969] ++
  [1923]

/-- V-B2: TBLD's entries in the reference binding. -/
theorem test_tbld_reference_table : 
    (List.range 161).map (fun i => (entryCode referenceCfg i).toNat) = referenceTable := by
  decide +kernel

/-- TBLD on two temperatures: 1/2 and 9/19 of the full scale, rounded; STATUS as in V-B2. -/
theorem test_tbld_two_entries :
    part (exec .tbld (loaded .spi)) (fun t => (t.tbl, t.status)) = some ([(0, 500#16), (1, 474#16)], 0x22#8) := by
  decide +kernel

/-- V-T1: a clamp on each side, both ends, an inner entry and values between. -/
theorem test_tinv_synthetic_table :
    [1001, 1000, 901, 900, 850, 700, 660, 659].map (fun raw =>
        part (exec .tinv (tabled 0 4 [1000, 900, 810, 730, 660] raw)) (fun t => (t.temp, t.status)))
      = [some (some 0#16, 0x22#8), some (some 0#16, 0x32#8), some (some 9#16, 0x32#8), some (some 10#16, 0x32#8),
         some (some 15#16, 0x32#8), some (some 34#16, 0x32#8), some (some 40#16, 0x32#8),
         some (some 40#16, 0x22#8)] := by
  decide +kernel

/-- V-T2: a zero-width bracket, a bracket narrower than 10 codes, negative readings and the largest fraction. -/
theorem test_tinv_degenerate_brackets :
    [501, 500, 450, 399, 395, 377, 376, 375].map (fun raw =>
        part (exec .tinv (tabled (-2) 3 [500, 500, 400, 395, 395, 376] raw))
          (fun t => (t.temp.map BitVec.toInt, inRangeOf t.status)))
      = [some (some (-20), false), some (some (-20), true), some (some (-5), true), some (some 0, true),
         some (some 0, true), some (some 38, true), some (some 39, true), some (some 30, false)] := by
  decide +kernel

/-! ### Reset and the host (95 part 2.6) -/

/-- V-R1, V-R2: STATUS and RXN right after reset. -/
theorem test_reset_status : State.reset.status = 0x00#8 ∧ State.reset.rxn = 0#16 := by decide

/-- V-R4: ENC right after reset. -/
theorem test_reset_enc_refused : refusal (exec .enc State.reset) = some (.noOperand 2) := by decide +kernel

/-- The reference binding is a legal configuration, so `State.reset` is one of the resets that statements speak of. -/
theorem test_reference_legal : CfgLegal referenceCfg := cfgLegal_of_graph rfl (by decide +kernel) (by decide)

/-- A command placed for the next step runs: ENC, the first instruction after reset. -/
theorem test_placed_command_runs :
    part (step (State.reset.withFetchWord 8 1)) (fun t => t.status) = some 0x02#8 := by decide +kernel

/-! ### States that meet the hypotheses of the statements, each clause at its boundary

The names say which statement. A hypothesis `exec i s = .next t` or `step s = .next t` is met by `next_of_part`. -/

theorem witness_ReservedCommandRefused :
    ((asked .spi (.write 0 (.byte 0x00#8))).host = [.write 0 (.byte 0x00#8)] ∧ busyOf (loaded .spi).status = false ∧
      (0x00#8 : Byte).toNat = 0) ∧
    ((asked .spi (.post 0x07#8)).host = [.post 0x07#8] ∧ 7 ≤ (0x07#8 : Byte).toNat) ∧
    ((asked .spi (.write 0 (.byte 0xFF#8))).host = [.write 0 (.byte 0xFF#8)] ∧ 7 ≤ (0xFF#8 : Byte).toNat) := by decide

theorem witness_StepRunsDecodedOperation :
    (asked .spi (.write 0 (.byte 0x03#8))).host = [.write 0 (.byte 0x03#8)] ∧
    busyOf (asked .spi (.write 0 (.byte 0x03#8))).status = false ∧ decodeCmd 0x03#8 = .ok .spix := by decide

theorem witness_SilentHostLeavesSequencer :
    (loaded .spi).host = [] ∧ (loaded .spi).ph = .idle ∧ busySpi.host = [] ∧ busySpi.ph ≠ .idle := by decide

theorem tiny_thermalLegal (m : Mode) : thermalLegal (tiny m) = true := by cases m <;> decide +kernel

theorem tiny_legal (m : Mode) : CfgLegal (tiny m) := cfgLegal_of_graph rfl (tiny_thermalLegal m) (by cases m <;> decide)

/-- Over the same constants the exponential itself (R103): what is asked of it holds, and so some table makes the
configuration legal. -/
theorem natural_exp_legal : ∃ es, CfgLegal (natural .spi es) := by
  have h := (tiny_legal .spi).thermal
  exact cfgLegal_exact (c := natural .spi []) rfl
    { order := h.order, low := h.low, high := h.high, beta := h.beta, rRef := h.rRef, tRef := h.tRef, rPu := h.rPu,
      scale := h.scale, scaleMax := h.scaleMax, exp := natural_legal } (by decide)

theorem witness_PostedCommandIssues :
    (ready (asked .spi (.post 0x03#8)) ∧ (tiny .spi).mode = .spi ∧ (loaded .spi).txf = some sourceFrame) ∧
    (ready (asked .tplSwcs (.post 0x04#8)) ∧ (tiny .tplSwcs).mode ≠ .spi ∧ (loaded .tplSwcs).nfr = some 2#16 ∧
      1 ≤ (1#16 : Word16).toNat ∧ (3#16 : Word16).toNat ≤ (tiny .tplSwcs).maxFrames) ∧
    (ready (asked .spi (.post 0x05#8)) ∧ tblValidOf (loaded .spi).status = false) ∧
    (ready (tabled 0 1 [500, 474] 500) ∧ tblValidOf (tabled 0 1 [500, 474] 500).status = true ∧
      tableFit (tabled 0 1 [500, 474] 500).cfg (tabled 0 1 [500, 474] 500).tbl = true) := by
  unfold ready
  decide +kernel

theorem witness_ResetInProgressRefused :
    ({ busySpi with host := [.reset] } : State).host = [.reset] ∧ busyOf busySpi.status = true := by decide

theorem witness_ResetInputTakesEffect :
    (asked .spi .reset).host = [.reset] ∧ busyOf (asked .spi .reset).status = false := by decide

theorem witness_OperandWritesTakeEffect :
    busyOf (loaded .spi).status = false ∧
    (asked .spi (.write 2 (.frame sourceFrame))).host = [.write 2 (.frame sourceFrame)] ∧
    (asked .spi (.write 3 (.word 0#16))).host = [.write 3 (.word 0#16)] ∧
    (asked .spi (.write 4 (.block sourceBlock))).host = [.write 4 (.block sourceBlock)] ∧
    (asked .spi (.write 5 (.word 65535#16))).host = [.write 5 (.word 65535#16)] := by decide

theorem witness_AccessWhileBusy :
    busyOf busySpi.status = true ∧ ({ busySpi with host := [.read 1] } : State).host = [.read 1] ∧
    ({ busySpi with host := [.write 2 (.frame sourceFrame)] } : State).host = [.write 2 (.frame sourceFrame)] ∧
    ({ busySpi with host := [.post 0x01#8] } : State).host = [.post 0x01#8] ∧
    ({ busySpi with host := [.read 0] } : State).host = [.read 0] ∧ (0 : Nat) ≠ 1 := by decide

/-- Every register holding a value: operands, results, all MAX_FRAMES elements of RXF. -/
def full : State :=
  { loaded .spi with
    wout := some sourceBlock, fout := some sourceFrame, temp := some 0#16, rxn := 3#16,
    rxf := [(0, sourceFrame), (1, sourceFrame), (2, sourceFrame)] }

theorem witness_ReadsDeliverRegisters :
    busyOf full.status = false ∧ full.txf.map RegVal.frame = some (.frame sourceFrame) ∧
    full.nfr.map RegVal.word = some (.word 2#16) ∧ full.win.map RegVal.block = some (.block sourceBlock) ∧
    full.raw.map RegVal.word = some (.word 500#16) ∧ full.wout.map RegVal.block = some (.block sourceBlock) ∧
    full.fout.map RegVal.frame = some (.frame sourceFrame) ∧ full.temp.map RegVal.word = some (.word 0#16) ∧
    (0 < full.cfg.maxFrames ∧ (Memory.read full.rxf 0).map RegVal.frame = some (.frame sourceFrame)) ∧
    (2 < full.cfg.maxFrames ∧ (Memory.read full.rxf 2).map RegVal.frame = some (.frame sourceFrame)) := by decide +kernel

/-- Right after reset no register but RXN and STATUS holds a value. -/
theorem witness_ReadsOfNoValueRefused :
    let s := State.resetWith (tiny .spi)
    busyOf s.status = false ∧ s.txf = none ∧ s.nfr = none ∧ s.win = none ∧ s.raw = none ∧ s.wout = none ∧
    s.fout = none ∧ s.temp = none ∧ (0 < s.cfg.maxFrames ∧ Memory.read s.rxf 0 = none) ∧
    (2 < s.cfg.maxFrames ∧ Memory.read s.rxf 2 = none) := by decide +kernel

theorem witness_NoSuchAccessRefused :
    busyOf (loaded .spi).status = false ∧ (asked .spi (.write 1 (.byte 0#8))).host = [.write 1 (.byte 0#8)] ∧
    (asked .spi (.write 6 (.block sourceBlock))).host = [.write 6 (.block sourceBlock)] ∧
    (asked .spi (.read 0)).host = [.read 0] ∧ (asked .spi (.read 10)).host = [.read 10] ∧
    (asked .spi (.read 15)).host = [.read 15] ∧ (asked .spi (.read 19)).host = [.read 19] ∧
    15 + (tiny .spi).maxFrames < 19 := by decide

theorem witness_ReadsHaveNoSideEffect :
    (asked .spi (.read 8)).host = [.read 8] ∧ ∃ t, step (asked .spi (.read 8)) = .next t :=
  ⟨rfl, next_of_part (by decide +kernel)⟩

theorem witness_EncWritesWireBuffer :
    (ready (loaded .spi) ∧ (loaded .spi).txf = some sourceFrame) ∧
    (ready (State.resetWith (tiny .spi)) ∧ (State.resetWith (tiny .spi)).txf = none) ∧
    busyOf busySpi.status = true := by
  unfold ready
  decide

theorem witness_DecWritesFrame :
    (ready (loaded .spi) ∧ (loaded .spi).win = some sourceBlock) ∧
    (ready (State.resetWith (tiny .spi)) ∧ (State.resetWith (tiny .spi)).win = none) ∧
    busyOf busySpi.status = true := by
  unfold ready
  decide

theorem witness_PaddingIgnored :
    (blockBytes sourceBlock).take 5 = (blockBytes { sourceBlock with w7 := 0xEE#8 }).take 5 ∧
    sourceBlock ≠ { sourceBlock with w7 := 0xEE#8 } := by decide

/-! #### Transfers -/

theorem witness_SpixSuccess :
    let s := scripted .spi [] [.ok paddedBlock] [] []
    ready s ∧ s.cfg.mode = .spi ∧ s.txf = some sourceFrame ∧ s.env.nextXfer = .ok paddedBlock := by
  unfold ready
  decide

theorem witness_SpixErrors :
    ready (loaded .spi) ∧ (loaded .spi).cfg.mode = .spi ∧ (loaded .spi).txf = some sourceFrame ∧
    (scripted .spi [] [.timeout] [] []).env.nextXfer = .timeout ∧
    (scripted .spi [] [.fail] [] []).env.nextXfer = .fail ∧
    ∃ t, exec .spix (scripted .spi [] [.fail] [] []) = .next t :=
  ⟨⟨rfl, rfl⟩, rfl, rfl, rfl, rfl, next_of_part (by decide +kernel)⟩

/-- A failed exchange, and one whose response is reported. -/
theorem witness_SpixOneExchange :
    (∃ t, exec .spix (scripted .spi [] [.timeout] [] []) = .next t) ∧
    (∃ t, exec .spix (scripted .spi [] [.ok paddedBlock] [] []) = .next t ∧
      t.trace = [.mXfer sourceBlock .full (.ok (some paddedBlock))]) :=
  ⟨next_of_part (by decide +kernel), next_of_part_eq (by decide +kernel)⟩

theorem witness_TransferRefusals :
    ready (loaded .spi) ∧ (loaded .spi).cfg.mode = .spi ∧ ready (loaded .tplHwcs) ∧
    (loaded .tplHwcs).cfg.mode ≠ .spi ∧ (State.resetWith (tiny .spi)).txf = none ∧
    (State.resetWith (tiny .tplHwcs)).txf = none ∧ ({ loaded .tplHwcs with nfr := none } : State).nfr = none ∧
    (0#16 : Word16).toNat = 0 ∧ (tiny .tplHwcs).maxFrames < (4#16 : Word16).toNat := by
  unfold ready
  decide

/-- The arm fails, with NFR = 1 and with NFR = MAX_FRAMES. -/
theorem witness_TplxArmFailure :
    let s := scripted .tplSwcs [.armFail] [] [] []
    (ready s ∧ s.cfg.mode ≠ .spi ∧ s.txf = some sourceFrame ∧ s.env.armAt 0 = .armFail) ∧
    (ready { s with nfr := some 1#16 } ∧ 1 ≤ (1#16 : Word16).toNat ∧ (1#16 : Word16).toNat ≤ s.cfg.maxFrames) ∧
    (ready { s with nfr := some 3#16 } ∧ 1 ≤ (3#16 : Word16).toNat ∧ (3#16 : Word16).toNat ≤ s.cfg.maxFrames) := by
  unfold ready
  decide

theorem witness_TplxTransmitFailure :
    let s := scripted .tplSwcs [.armOk] [.timeout] [] []
    let s' := scripted .tplHwcs [.armOk] [.fail] [] []
    (ready s ∧ s.cfg.mode = .tplSwcs ∧ s.nfr = some 2#16 ∧ (2#16 : Word16).toNat ≤ s.cfg.maxFrames ∧
      s.env.armAt 0 = .armOk ∧ s.env.afterArm.nextXfer = .timeout) ∧
    (ready s' ∧ s'.cfg.mode = .tplHwcs ∧ s'.env.armAt 0 = .armOk ∧ s'.env.afterArm.nextXfer = .fail) := by
  unfold ready
  decide

theorem witness_TplxPollTimeout :
    let s := scripted .tplHwcs [.armOk] [.ok default] [.busy, .busy, .busy] []
    ready s ∧ s.cfg.mode ≠ .spi ∧ s.txf = some sourceFrame ∧ s.nfr = some 2#16 ∧ s.env.armAt 0 = .armOk ∧
    s.env.afterArm.nextXfer = .ok default ∧ budget0 s.cfg = 3 ∧
    ∀ i, i < 3 → s.env.afterArm.afterXfer.pollAt i = .busy := by
  unfold ready
  decide

/-- Idle at the first poll, and idle at the last allowed one. -/
theorem witness_TplxSuccess :
    let s := scripted .tplHwcs [.armOk] [.ok default] [.idle] [sourceBlock, paddedBlock]
    let s' := scripted .tplSwcs [.armOk] [.ok default] [.busy, .busy, .idle] [sourceBlock, paddedBlock]
    (ready s ∧ s.cfg.mode ≠ .spi ∧ s.txf = some sourceFrame ∧ s.nfr = some 2#16 ∧ s.env.armAt 0 = .armOk ∧
      s.env.afterArm.nextXfer = .ok default ∧ 0 < budget0 s.cfg ∧ s.env.afterArm.afterXfer.pollAt 0 = .idle) ∧
    (ready s' ∧ s'.env.armAt 0 = .armOk ∧ s'.env.afterArm.nextXfer = .ok default ∧ 2 < budget0 s'.cfg ∧
      (∀ i, i < 2 → s'.env.afterArm.afterXfer.pollAt i = .busy) ∧ s'.env.afterArm.afterXfer.pollAt 2 = .idle) := by
  unfold ready
  decide

/-- TPLX that completes: with a failed arm, a failed transmit, a spent budget, and with success. -/
theorem tplx_completes :
    (∃ t, exec .tplx (scripted .tplSwcs [.armFail] [] [] []) = .next t) ∧
    (∃ t, exec .tplx (scripted .tplSwcs [.armOk] [.timeout] [] []) = .next t) ∧
    (∃ t, exec .tplx (scripted .tplHwcs [.armOk] [.ok default] [.busy, .busy, .busy] []) = .next t) ∧
    (∃ t, exec .tplx (scripted .tplHwcs [.armOk] [.ok default] [.idle] [sourceBlock, paddedBlock]) = .next t) :=
  ⟨next_of_part (by decide +kernel), next_of_part (by decide +kernel), next_of_part (by decide +kernel),
    next_of_part (by decide +kernel)⟩

theorem witness_ArmPrecedesTransmit :
    ∃ t, exec .tplx (scripted .tplSwcs [.armOk] [.timeout] [] []) = .next t := tplx_completes.2.1

/-- Both sides of the inner conditions: a failure after a successful arm, and a success. -/
theorem witness_AbortExactlyOnFailureAfterArm :
    (∃ t, exec .tplx (scripted .tplSwcs [.armOk] [.timeout] [] []) = .next t ∧ errOf t.status = 1#2) ∧
    (∃ t, exec .tplx (scripted .tplHwcs [.armOk] [.ok default] [.idle] [sourceBlock, paddedBlock]) = .next t ∧
      errOf t.status = 0#2) :=
  ⟨next_of_part_eq (by decide +kernel), next_of_part_eq (by decide +kernel)⟩

/-- The transmit succeeded and no poll answered idle. -/
theorem witness_PollsWithinBudget :
    ∃ t, exec .tplx (scripted .tplHwcs [.armOk] [.ok default] [.busy, .busy, .busy] []) = .next t ∧
      (decide (Event.mXfer sourceBlock .txOnly (.ok none) ∈ t.trace), decide (Event.sPoll .idle ∈ t.trace))
        = (true, false) :=
  next_of_part_eq (by decide +kernel)

theorem witness_ChipSelectFraming :
    (∃ t, exec .tplx (scripted .tplSwcs [.armFail] [] [] []) = .next t) ∧
    (∃ t, exec .tplx (scripted .tplSwcs [.armOk] [.timeout] [] []) = .next t) := ⟨tplx_completes.1, tplx_completes.2.1⟩

/-! #### The table and the inverter -/

/-- With a graph, and with the exponential itself. -/
theorem witness_TbldFillsTable :
    (ready (loaded .spi) ∧ tblValidOf (loaded .spi).status = false ∧ CfgLegal (loaded .spi).cfg) ∧
    ∃ es, let s := { loaded .spi with cfg := natural .spi es }
      ready s ∧ tblValidOf s.status = false ∧ CfgLegal s.cfg :=
  have hr : ready (loaded .spi) := ⟨by decide, rfl⟩
  have hv : tblValidOf (loaded .spi).status = false := by decide
  ⟨⟨hr, hv, tiny_legal .spi⟩, natural_exp_legal.imp fun _ h => ⟨hr, hv, h⟩⟩

theorem witness_TableNeverRises : ThermalConstraints (tiny .spi) ∧ 0 + 1 < nt (tiny .spi) :=
  ⟨(tiny_legal .spi).thermal, by decide⟩

/-- The first and the last index of a graph, and the exponential itself. -/
theorem witness_EntriesFitTheirWidth :
    (ThermalConstraints (tiny .spi) ∧ TableExact (tiny .spi) ∧ 0 < nt (tiny .spi) ∧ 1 < nt (tiny .spi)) ∧
    ∃ es, ThermalConstraints (natural .spi es) ∧ TableExact (natural .spi es) ∧ 1 < nt (natural .spi es) :=
  have h1 : 1 < nt (tinyBase .spi) := by decide
  ⟨⟨(tiny_legal .spi).thermal, (tiny_legal .spi).table, by decide, by decide⟩,
    natural_exp_legal.imp fun _ h => ⟨h.thermal, h.table, h1⟩⟩

theorem witness_EntryAtReferenceTemperature :
    ThermalConstraints (tiny .spi) ∧ 0 < nt (tiny .spi) ∧ ((tempAt (tiny .spi) 0 : Int) : ℝ) = (tiny .spi).tRef.value :=
  ⟨(tiny_legal .spi).thermal, by decide, by simp [tiny, tinyBase, tempAt, RealConst.value]⟩

/-- Ties at the least `k`, and a value that is no tie. -/
theorem witness_RoundingToNearest :
    (0 : Int) ≤ 0 ∧ roundHalfAway (1 / 2 : Rat) = 1 ∧ roundHalfAway (-(1 / 2) : Rat) = -1 ∧
    roundHalfAway (49 / 100 : Rat) = 0 := by
  decide +kernel

theorem witness_TableRefusals :
    (ready (tabled 0 1 [500, 474] 500) ∧ tblValidOf (tabled 0 1 [500, 474] 500).status = true) ∧
    (ready (loaded .spi) ∧ tblValidOf (loaded .spi).status = false) ∧
    thermalLegal { tiny .spi with beta := .rat 0 } = false ∧
    ({ tabled 0 1 [500, 474] 500 with raw := none } : State).raw = none ∧
    tableFit (tabled 0 1 [474, 500] 500).cfg (tabled 0 1 [474, 500] 500).tbl = false := by
  unfold ready
  decide +kernel

/-- RAW one below the last entry. -/
theorem witness_TinvBelowTable :
    let s := tabled 0 1 [500, 474] 473
    ready s ∧ tblValidOf s.status = true ∧ s.raw = some 473#16 ∧ tableFit s.cfg s.tbl = true ∧
    (473#16 : Word16).toNat < entryAt s (nt s.cfg - 1) := by
  unfold ready
  decide +kernel

/-- RAW one above the first entry. -/
theorem witness_TinvAboveTable :
    let s := tabled 0 1 [500, 474] 501
    ready s ∧ tblValidOf s.status = true ∧ s.raw = some 501#16 ∧ tableFit s.cfg s.tbl = true ∧
    entryAt s 0 < (501#16 : Word16).toNat := by
  unfold ready
  decide +kernel

/-- RAW equal to the last entry and to the first. -/
theorem witness_TinvInRange :
    let s := tabled 0 1 [500, 474] 474
    let s' := tabled 0 1 [500, 474] 500
    (ready s ∧ tblValidOf s.status = true ∧ s.raw = some 474#16 ∧ tableFit s.cfg s.tbl = true ∧
      entryAt s (nt s.cfg - 1) ≤ (474#16 : Word16).toNat ∧ (474#16 : Word16).toNat ≤ entryAt s 0) ∧
    (ready s' ∧ s'.raw = some 500#16 ∧ entryAt s' (nt s'.cfg - 1) ≤ (500#16 : Word16).toNat ∧
      (500#16 : Word16).toNat ≤ entryAt s' 0) := by
  unfold ready
  decide +kernel

/-- Widths 0, 9 and 10. -/
theorem witness_NarrowBracketFractionZero :
    ((5 : Int) ≤ 5 ∧ (5 : Int) - 5 < 10) ∧ ((5 : Int) ≤ 14 ∧ (14 : Int) - 5 < 10) ∧ (10 : Int) ≤ 15 - 5 := by decide

theorem witness_ReadingWithinBounds :
    -273 ≤ (tabled 0 1 [500, 474] 480).cfg.tMin ∧ (tabled 0 1 [500, 474] 480).cfg.tMax ≤ 3274 ∧
    ∃ t, exec .tinv (tabled 0 1 [500, 474] 480) = .next t :=
  ⟨by decide, by decide, next_of_part (by decide +kernel)⟩

theorem strictly_decreasing_two {a b : Nat} (raw : Nat) (h : entryAt (tabled 0 1 [a, b] raw) 1 <
      entryAt (tabled 0 1 [a, b] raw) 0) :
    ∀ k, k + 1 < nt (tabled 0 1 [a, b] raw).cfg →
      entryAt (tabled 0 1 [a, b] raw) (k + 1) < entryAt (tabled 0 1 [a, b] raw) k := by
  intro k hk
  have h2 : nt (tabled 0 1 [a, b] raw).cfg = 2 := by show (1 - 0 + 1 : Int).toNat = 2; decide
  obtain rfl : k = 0 := by omega
  exact h

/-- The first entry; the last one at distance 9, where the fraction is guarded; the last one at distance 10. -/
theorem witness_TableEntryRoundTrip :
    (ready (tabled 0 1 [500, 474] 500) ∧ tableFit (tabled 0 1 [500, 474] 500).cfg (tabled 0 1 [500, 474] 500).tbl = true ∧
      (500#16 : Word16).toNat = entryAt (tabled 0 1 [500, 474] 500) 0 ∧
      ∀ k, k + 1 < nt (tabled 0 1 [500, 474] 500).cfg →
        entryAt (tabled 0 1 [500, 474] 500) (k + 1) < entryAt (tabled 0 1 [500, 474] 500) k) ∧
    (ready (tabled 0 1 [500, 491] 491) ∧ tableFit (tabled 0 1 [500, 491] 491).cfg (tabled 0 1 [500, 491] 491).tbl = true ∧
      (491#16 : Word16).toNat = entryAt (tabled 0 1 [500, 491] 491) 1 ∧
      entryAt (tabled 0 1 [500, 491] 491) 0 - entryAt (tabled 0 1 [500, 491] 491) 1 < 10 ∧
      ∀ k, k + 1 < nt (tabled 0 1 [500, 491] 491).cfg →
        entryAt (tabled 0 1 [500, 491] 491) (k + 1) < entryAt (tabled 0 1 [500, 491] 491) k) ∧
    (ready (tabled 0 1 [500, 490] 490) ∧ tableFit (tabled 0 1 [500, 490] 490).cfg (tabled 0 1 [500, 490] 490).tbl = true ∧
      (490#16 : Word16).toNat = entryAt (tabled 0 1 [500, 490] 490) 1 ∧
      10 ≤ entryAt (tabled 0 1 [500, 490] 490) 0 - entryAt (tabled 0 1 [500, 490] 490) 1 ∧
      ∀ k, k + 1 < nt (tabled 0 1 [500, 490] 490).cfg →
        entryAt (tabled 0 1 [500, 490] 490) (k + 1) < entryAt (tabled 0 1 [500, 490] 490) k) :=
  ⟨⟨⟨rfl, rfl⟩, by decide +kernel, by decide +kernel, strictly_decreasing_two 500 (by decide +kernel)⟩,
    ⟨⟨rfl, rfl⟩, by decide +kernel, by decide +kernel, by decide +kernel,
      strictly_decreasing_two 491 (by decide +kernel)⟩,
    ⟨⟨rfl, rfl⟩, by decide +kernel, by decide +kernel, by decide +kernel,
      strictly_decreasing_two 490 (by decide +kernel)⟩⟩

/-- TINV in its search, the bracket from `l` to `r` of the table of V-T1. -/
def searching (raw l r : Nat) : State :=
  { tabled 0 4 [1000, 900, 810, 730, 660] raw with status := 0x21#8, ph := .invBisect, sl := l, sr := r }

/-- The whole table as the bracket, a bracket with 0 < SL, and adjacent ends. -/
theorem witness_BisectionKeepsBracket :
    (let s := searching 850 0 4
     s.ph = .invBisect ∧ s.raw = some 850#16 ∧ tableFit s.cfg s.tbl = true ∧ s.sl < s.sr ∧ s.sr < nt s.cfg ∧
      (850#16 : Word16).toNat ≤ entryAt s s.sl ∧ entryAt s s.sr ≤ (850#16 : Word16).toNat ∧ s.sl + 1 ≠ s.sr) ∧
    (let s := searching 850 1 2
     s.ph = .invBisect ∧ s.raw = some 850#16 ∧ tableFit s.cfg s.tbl = true ∧ s.sl < s.sr ∧ s.sr < nt s.cfg ∧
      (850#16 : Word16).toNat < entryAt s s.sl ∧ entryAt s s.sr ≤ (850#16 : Word16).toNat ∧ s.sl + 1 = s.sr) := by
  decide +kernel

/-- The smallest table and one of five entries. -/
theorem witness_BisectionIsLogarithmic :
    ((searching 850 0 4).ph = .invBisect ∧ (searching 850 0 4).sl = 0 ∧
      (searching 850 0 4).sr = nt (searching 850 0 4).cfg - 1 ∧ 2 ≤ nt (searching 850 0 4).cfg) ∧
    (let s : State := { tabled 0 1 [500, 474] 480 with status := 0x21#8, ph := .invBisect, sl := 0, sr := 1 }
     s.ph = .invBisect ∧ s.sl = 0 ∧ s.sr = nt s.cfg - 1 ∧ 2 ≤ nt s.cfg) := by decide +kernel

/-! #### The whole machine -/

/-- Every operation completes from some state with both engines at rest. -/
theorem every_operation_completes :
    (loaded .spi).sArmed = false ∧ (loaded .spi).csTx = .deasserted ∧
    (∃ t, exec .enc (loaded .spi) = .next t) ∧ (∃ t, exec .dec (loaded .spi) = .next t) ∧
    (∃ t, exec .spix (scripted .spi [] [.ok paddedBlock] [] []) = .next t) ∧
    (∃ t, exec .tplx (scripted .tplHwcs [.armOk] [.ok default] [.idle] [sourceBlock, paddedBlock]) = .next t) ∧
    (∃ t, exec .tbld (loaded .spi) = .next t) ∧ (∃ t, exec .tinv (tabled 0 1 [500, 474] 480) = .next t) :=
  ⟨rfl, rfl, next_of_part (by decide +kernel), next_of_part (by decide +kernel), next_of_part (by decide +kernel),
    next_of_part (by decide +kernel), next_of_part (by decide +kernel), next_of_part (by decide +kernel)⟩

theorem witness_OnlyTransfersFail : Instr.tbld ≠ .spix ∧ Instr.tbld ≠ .tplx ∧ ∃ t, exec .tbld (loaded .spi) = .next t :=
  ⟨by decide, by decide, every_operation_completes.2.2.2.2.2.2.1⟩

theorem witness_OperationEndsIdle :
    (loaded .tplHwcs).sArmed = false ∧ (loaded .tplHwcs).csTx = .deasserted ∧
    ∃ t, exec .tplx (scripted .tplHwcs [.armOk] [.ok default] [.idle] [sourceBlock, paddedBlock]) = .next t :=
  ⟨rfl, rfl, every_operation_completes.2.2.2.2.2.1⟩

theorem witness_OperandsUnchanged : ∃ t, exec .tinv (tabled 0 1 [500, 474] 480) = .next t :=
  every_operation_completes.2.2.2.2.2.2.2

/-- An error after each of the two codes. -/
theorem witness_ErrorLeavesTheRest :
    (∃ t, exec .spix (scripted .spi [] [.timeout] [] []) = .next t ∧ errOf t.status = 1#2) ∧
    (∃ t, exec .tplx (scripted .tplSwcs [.armFail] [] [] []) = .next t ∧ errOf t.status = 2#2) :=
  ⟨next_of_part_eq (by decide +kernel), next_of_part_eq (by decide +kernel)⟩

theorem witness_SubsystemsIndependent :
    (∃ t, exec .spix (scripted .spi [] [.ok paddedBlock] [] []) = .next t) ∧
    (∃ t, exec .tbld (loaded .spi) = .next t) :=
  ⟨every_operation_completes.2.2.2.2.1, every_operation_completes.2.2.2.2.2.2.1⟩

theorem witness_InvariantAtReset : CfgLegal (tiny .spi) ∧ CfgLegal referenceCfg :=
  ⟨tiny_legal .spi, test_reference_legal⟩

/-- The invariant holds with SPIX in progress: its premises can be met by a state that is not idle. -/
theorem busySpi_inv : Inv busySpi where
  legal := tiny_legal .spi
  txw := by simp [busySpi, loaded, State.resetWith, insideSpace]
  rxw := by simp [busySpi, loaded, State.resetWith, insideSpace]
  rxf := by simp [busySpi, loaded, State.resetWith, heldBelow]
  tbl := by simp [busySpi, loaded, State.resetWith, tblValidOf]
  status := by decide
  busy := by decide
  engines := by decide
  bud := Nat.zero_le _
  spi := fun _ => ⟨rfl, by decide, rfl⟩
  tpl := fun h => by simp [busySpi, tplPhase] at h
  fill := fun h => by simp [busySpi] at h
  inv := fun h => by simp [busySpi, invPhase] at h

/-- A state with a built table and no operation in progress. -/
def built : State := { loaded .spi with tbl := [(0, 500#16), (1, 474#16)], status := 0x22#8 }

theorem built_inv : Inv built where
  legal := tiny_legal .spi
  txw := by simp [built, loaded, State.resetWith, insideSpace]
  rxw := by simp [built, loaded, State.resetWith, insideSpace]
  rxf := by simp [built, loaded, State.resetWith, heldBelow]
  tbl := ⟨fun h => absurd h (by decide), fun _ => by decide +kernel⟩
  status := by decide
  busy := by decide
  engines := by decide
  bud := Nat.zero_le _
  spi := fun h => by simp [built, loaded, State.resetWith] at h
  tpl := fun h => by simp [built, loaded, State.resetWith, tplPhase] at h
  fill := fun h => by simp [built, loaded, State.resetWith] at h
  inv := fun h => by simp [built, loaded, State.resetWith, invPhase] at h

/-- A step of SPIX in progress, whatever the environment answers. -/
theorem witness_EveryStepKeepsInvariant : Inv busySpi ∧ ∃ t, step busySpi = .next t := ⟨busySpi_inv, _, rfl⟩

theorem witness_SequencerNeverStuck : Inv busySpi ∧ busyOf busySpi.status = true ∧ busySpi.host = [] :=
  ⟨busySpi_inv, rfl, rfl⟩

theorem witness_PhasesReachWholeOperation :
    ∃ t, exec .tplx (scripted .tplHwcs [.armOk] [.ok default] [.busy, .busy, .busy] []) = .next t := tplx_completes.2.2.1

theorem witness_ConfigurationConstant : ∃ t, step busySpi = .next t := ⟨_, rfl⟩

/-- The table is built, the host is silent, and the machine steps. -/
theorem witness_TableImmutable :
    Inv built ∧ tblValidOf built.status = true ∧ built.host.head? ≠ some .reset ∧ ∃ t, step built = .next t :=
  ⟨built_inv, by decide, by decide, _, rfl⟩

theorem witness_TraceOnlyGrows : busySpi.host.head? ≠ some .reset ∧ ∃ t, step busySpi = .next t := ⟨by decide, _, rfl⟩

/-- Two different states that agree when the scratch items are set aside, one operation refused and one completing. -/
theorem witness_NoHiddenMemory :
    loaded .spi ≠ { loaded .spi with bud := 2, sl := 1, txw := [(0, 0xFF#8)] } ∧
    hideScratch (loaded .spi) = hideScratch { loaded .spi with bud := 2, sl := 1, txw := [(0, 0xFF#8)] } ∧
    exec .tinv (loaded .spi) = .refused .tableNotBuilt ∧ ∃ t, exec .enc (loaded .spi) = .next t :=
  ⟨by decide +kernel, rfl, refused_of_refusal (by decide +kernel), every_operation_completes.2.2.1⟩

end Sys2Proof.Tests
end

section
/-! The events of TPLX in their order (20_memory R50, 43_tpl_engine R84 to R95): one equation for `tplRun` per way an
operation can end, the events of every run, and from them that the arm comes first. -/

namespace Sys2Proof.Machine

/-! ### The five ways TPLX ends -/

/-- The state after a successful arm for `n` frames, in phase TPL_TX (43_tpl_engine R85). -/
def armed (n : Nat) (s : State) : State :=
  { s with env := s.env.afterArm, sArmed := true, rxw := [], trace := s.trace ++ [.sArm (8 * n) .armOk], ph := .tplTx }

/-- The state in which the poll loop begins: armed, the frame sent, the whole budget left (43_tpl_engine R92). -/
def polling (n : Nat) (f : Frame) (s : State) : State :=
  { transmitted f (armed n s) with ph := .tplPoll, bud := budget0 s.cfg }

/-- The state after the idle answer to poll `j`, counted from 0: the `n` blocks are in RXW (43_tpl_engine R92, R94). -/
def received (n : Nat) (f : Frame) (j : Nat) (s : State) : State :=
  let p := polling n f s
  let e := p.env.afterPolls (j + 1)
  { p with env := e.afterData n, sArmed := false, rxw := Memory.writeList [] 0 (e.sData n), bud := budget0 s.cfg - j,
           trace := p.trace ++ List.replicate j (.sPoll .busy) ++ [.sPoll .idle], ph := .tplDecode }

section
variable {n : Nat} {f : Frame} {s : State}

theorem tplRun_armFail (ha : s.env.armAt 0 = .armFail) :
    tplRun n f s =
      raiseError .busBusy { s with env := s.env.afterArm, trace := s.trace ++ [.sArm (8 * n) .armFail] } := by
  simp [tplRun, tplArm_fail ha]

/-- After a successful arm the operation goes on with the answer of the transmit (R84 step 2). -/
theorem tplRun_armOk (ha : s.env.armAt 0 = .armOk) :
    tplRun n f s =
      let sent := tplSent s.env.afterArm.nextXfer (transmitted f (armed n s))
      if sent.ph = .tplPoll then tplFinish n (tplPolls n sent) else sent := by
  have harm : tplArm n s = armed n s := tplArm_ok ha
  have hph : (armed n s).ph = .tplTx := rfl
  simp only [tplRun, harm, hph, if_true, tplTx_eq]
  rfl

theorem tplRun_xferTimeout (ha : s.env.armAt 0 = .armOk) (hx : s.env.afterArm.nextXfer = .timeout) :
    tplRun n f s = raiseError .timeout (sAbort (transmitted f (armed n s))) := by
  simp [tplRun_armOk ha, hx, tplSent]

theorem tplRun_xferFail (ha : s.env.armAt 0 = .armOk) (hx : s.env.afterArm.nextXfer = .fail) :
    tplRun n f s = raiseError .busBusy (sAbort (transmitted f (armed n s))) := by
  simp [tplRun_armOk ha, hx, tplSent]

theorem tplRun_xferOk {r : Block} (ha : s.env.armAt 0 = .armOk) (hx : s.env.afterArm.nextXfer = .ok r) :
    tplRun n f s = tplFinish n (tplPolls n (polling n f s)) := by
  rw [tplRun_armOk ha, hx]
  rfl

theorem tplRun_pollTimeout {r : Block} (ha : s.env.armAt 0 = .armOk) (hx : s.env.afterArm.nextXfer = .ok r)
    (hb : ∀ i, i < budget0 s.cfg → (polling n f s).env.pollAt i = .busy) :
    tplRun n f s =
      raiseError .timeout (sAbort { polledBusy (budget0 s.cfg) (polling n f s) with ph := .tplTimeout }) := by
  rw [tplRun_xferOk ha hx, tplPolls_timeout rfl hb]
  rfl

theorem tplRun_pollIdle {r : Block} {j : Nat} (ha : s.env.armAt 0 = .armOk) (hx : s.env.afterArm.nextXfer = .ok r)
    (hj : j < budget0 s.cfg) (hb : ∀ i, i < j → (polling n f s).env.pollAt i = .busy)
    (hi : (polling n f s).env.pollAt j = .idle) :
    tplRun n f s = tplDecode n (received n f j s) := by
  rw [tplRun_xferOk ha hx, tplPolls_idle j rfl hj hb hi]
  rfl

end

/-! ### The events of a run -/

@[simp] theorem tplDecode_trace (n : Nat) (s : State) : (tplDecode n s).trace = s.trace := rfl

@[simp] theorem transmitted_armed_trace (n : Nat) (f : Frame) (s : State) :
    (transmitted f (armed n s)).trace = s.trace ++ .sArm (8 * n) .armOk ::
      framedTransmit s.cfg (encodeFrame f) (xferSeen .txOnly s.env.afterArm.nextXfer) :=
  List.append_assoc ..

/-- Either the arm failed and was the only event, or it succeeded and was followed by the framed transmit, then by
polls and aborts only (43_tpl_engine R84, R86, R88). -/
theorem tplRun_trace_cases (n : Nat) (f : Frame) (s : State) :
    (tplRun n f s).trace = s.trace ++ [.sArm (8 * n) .armFail] ∨
      ∃ a ev, (tplRun n f s).trace =
          s.trace ++ .sArm (8 * n) .armOk :: (framedTransmit s.cfg (encodeFrame f) a ++ ev) ∧
        ∀ e ∈ ev, isPoll e = true ∨ isAbort e = true := by
  cases ha : s.env.armAt 0 with
  | armFail => exact .inl (by simp [tplRun_armFail ha])
  | armOk =>
    refine .inr ⟨xferSeen .txOnly s.env.afterArm.nextXfer, ?_⟩
    cases hx : s.env.afterArm.nextXfer with
    | timeout => exact ⟨[.sAbort], by simp [tplRun_xferTimeout ha hx, hx], by simp [isAbort]⟩
    | fail => exact ⟨[.sAbort], by simp [tplRun_xferFail ha hx, hx], by simp [isAbort]⟩
    | ok r =>
      obtain hb | ⟨j, hj, hb, hi⟩ := polls_cases (polling n f s).env (budget0 s.cfg)
      · refine ⟨List.replicate (budget0 s.cfg) (.sPoll .busy) ++ [.sAbort], ?_, ?_⟩
        · simp [tplRun_pollTimeout ha hx hb, polledBusy, polling, hx]
        · simp +contextual [or_imp, List.mem_replicate, isPoll, isAbort]
      · refine ⟨List.replicate j (.sPoll .busy) ++ [.sPoll .idle], ?_, ?_⟩
        · simp [tplRun_pollIdle ha hx hj hb hi, received, polling, hx]
        · simp +contextual [or_imp, List.mem_replicate, isPoll]

/-- A TPLX that completes had its operands and ran `tplRun` from the issued state (43_tpl_engine R84). -/
theorem exec_tplx_next {s t : State} (h : exec .tplx s = .next t) :
    ∃ f n, s.txf = some f ∧ s.nfr = some n ∧ t = tplRun n.toNat f (issueTransfer .tplArm s) := by
  have hstart : startTplx s (fun f n s' => .next (tplRun n f s')) = .next t := h
  obtain ⟨-, -, -, f, n, hf, hn, -, -, hrun⟩ := startTplx_next hstart
  exact ⟨f, n, hf, hn, (Host.Outcome.next.inj hrun).symm⟩

/-! ### No second arm -/

theorem isArm_eq_false_of_mem_framedTransmit {c : Cfg} {w : Block} {a : XferSeen} {e : Event}
    (h : e ∈ framedTransmit c w a) : isArm e = false := by
  unfold framedTransmit at h
  cases hm : c.mode <;> simp only [hm, List.mem_cons, List.not_mem_nil, or_false] at h
  case tplSwcs => obtain rfl | rfl | rfl | rfl := h <;> rfl
  all_goals rw [h]; rfl

theorem isArm_eq_false_of_isPoll_or_isAbort {e : Event} (h : isPoll e = true ∨ isAbort e = true) : isArm e = false := by
  cases e <;> simp [isPoll, isAbort, isArm] at h ⊢

/-- Settles O30: an arm that fails is the only event, and after one that succeeds come the framed transmit, polls and
aborts, none of them an arm. -/
theorem armPrecedesTransmit : Obligations.ArmPrecedesTransmit := by
  intro s t h
  obtain ⟨f, n, -, hn, rfl⟩ := exec_tplx_next h
  obtain htr | ⟨a, ev, htr, hev⟩ := tplRun_trace_cases n.toNat f (issueTransfer .tplArm s)
  · exact ⟨n, .armFail, [], hn, htr, by simp, by simp⟩
  · refine ⟨n, .armOk, _, hn, htr, fun e he => ?_, fun _ => rfl⟩
    obtain hframe | htail := List.mem_append.mp he
    · exact isArm_eq_false_of_mem_framedTransmit hframe
    · exact isArm_eq_false_of_isPoll_or_isAbort (hev e htail)

end Sys2Proof.Machine
end

section
/-! Reserved commands (30_encoding R60, R65): which bytes decode at all, and what a CMD write of any other byte answers. -/

namespace Sys2Proof.Machine

theorem eq_encodeCmd_of_decodeCmd_ok (i : Instr) : ∀ c : Byte, decodeCmd c = .ok i → c = encodeCmd i := by
  cases i <;> decide

theorem encodeCmd_toNat_bounds (i : Instr) : 1 ≤ (encodeCmd i).toNat ∧ (encodeCmd i).toNat ≤ 6 := by
  cases i <;> decide

theorem decodeCmd_of_reserved {c : Byte} (hc : c.toNat = 0 ∨ 7 ≤ c.toNat) : ∃ e, decodeCmd c = .error e := by
  cases hd : decodeCmd c with
  | error e => exact ⟨e, rfl⟩
  | ok i =>
    have hrange := encodeCmd_toNat_bounds i
    rw [← eq_encodeCmd_of_decodeCmd_ok i c hd] at hrange
    omega

section
variable {c : Byte} {s : State} {e : DecodeError}

theorem runCommand_of_decodeCmd_error (hb : busyOf s.status = false) (hd : decodeCmd c = .error e) :
    runCommand c s = .refused (.reservedCommand c) := by
  simp [runCommand, hb, hd]

theorem postCommand_of_decodeCmd_error (hb : busyOf s.status = false) (hd : decodeCmd c = .error e) :
    postCommand c s = .refused (.reservedCommand c) := by
  simp [postCommand, hb, hd]

end

/-- Where the host's queue is not empty its first access is served (10_state R31). -/
theorem step_of_host_cons {s : State} {a : HostAccess} {rest : List HostAccess} (h : s.host = a :: rest) :
    step s = serve a { s with host := rest } := by
  simp [step, h]

/-- Settles O4: a reserved byte decodes to no operation, so both ways of writing CMD refuse it. -/
theorem reservedCommandRefused : Obligations.ReservedCommandRefused := by
  intro s c rest hhost hb hc
  obtain ⟨e, hd⟩ := decodeCmd_of_reserved hc
  obtain hwrite | hpost := hhost
  · exact (step_of_host_cons hwrite).trans (runCommand_of_decodeCmd_error hb hd)
  · exact (step_of_host_cons hpost).trans (postCommand_of_decodeCmd_error hb hd)

end Sys2Proof.Machine
end

section
/-! The frame codec (41_frame_codec R71 to R73): what ENC and DEC answer, and that decoding inverts encoding. -/

namespace Sys2Proof.Machine

/-! ### An operation that completes in its issuing step -/

@[simp] theorem withOperand_none {α : Type} (n : Nat) (k : α → Answer) :
    withOperand n none k = .refused (.noOperand n) := rfl

section
variable {s : State} {k : Answer}

theorem whenIdle_of_ready (h : ready s) : whenIdle s k = k := whenIdle_eq h.1 h.2

theorem whenIdle_of_busy (h : busyOf s.status = true) : whenIdle s k = .refused .operationInProgress :=
  if_neg (by simp [h])

/-- A completion in IDLE writes nothing but STATUS (60_exceptions R121): ERR = 0, BUSY = 0, DONE = 1. -/
theorem complete_ok_of_idle (h : s.ph = .idle) :
    complete .ok s = { s with status := (s.status &&& 0xF0#8) ||| 0x02#8 } := by
  have hstatus : completedStatus .ok s.status = (s.status &&& 0xF0#8) ||| 0x02#8 := by
    simp [completed_bits, codeBits]
  rw [complete, hstatus, ← h]

end

/-! ### ENC -/

section
variable {s : State}

theorem exec_enc_of_txf {f : Frame} (hs : ready s) (hf : s.txf = some f) :
    exec .enc s = .next { s with wout := some (encodeFrame f), status := (s.status &&& 0xF0#8) ||| 0x02#8 } := by
  have hstart : exec .enc s = .next (complete .ok { s with wout := some (encodeFrame f) }) := by
    rw [exec, execEnc, startEnc, whenIdle_of_ready hs, hf, withOperand_some]
  exact hstart.trans (congrArg Host.Outcome.next (complete_ok_of_idle hs.2))

theorem exec_enc_of_no_txf (hs : ready s) (hf : s.txf = none) : exec .enc s = .refused (.noOperand 2) := by
  rw [exec, execEnc, startEnc, whenIdle_of_ready hs, hf, withOperand_none]

theorem exec_enc_of_busy (hb : busyOf s.status = true) : exec .enc s = .refused .operationInProgress :=
  whenIdle_of_busy hb

end

/-- Settles O17: from an idle state ENC answers `encodeFrame` of TXF, and without TXF or while busy it is refused. -/
theorem encWritesWireBuffer : Obligations.EncWritesWireBuffer :=
  ⟨rfl, fun _ _ => exec_enc_of_txf, fun _ => exec_enc_of_no_txf, fun _ => exec_enc_of_busy⟩

/-! ### DEC -/

section
variable {s : State}

theorem exec_dec_of_win {w : Block} (hs : ready s) (hw : s.win = some w) :
    exec .dec s = .next { s with fout := some (decodeBlock w), status := (s.status &&& 0xF0#8) ||| 0x02#8 } := by
  have hstart : exec .dec s = .next (complete .ok { s with fout := some (decodeBlock w) }) := by
    rw [exec, execDec, startDec, whenIdle_of_ready hs, hw, withOperand_some]
  exact hstart.trans (congrArg Host.Outcome.next (complete_ok_of_idle hs.2))

theorem exec_dec_of_no_win (hs : ready s) (hw : s.win = none) : exec .dec s = .refused (.noOperand 4) := by
  rw [exec, execDec, startDec, whenIdle_of_ready hs, hw, withOperand_none]

theorem exec_dec_of_busy (hb : busyOf s.status = true) : exec .dec s = .refused .operationInProgress :=
  whenIdle_of_busy hb

end

/-- Settles O18: from an idle state DEC answers `decodeBlock` of WIN, and without WIN or while busy it is refused. -/
theorem decWritesFrame : Obligations.DecWritesFrame :=
  ⟨rfl, fun _ _ => exec_dec_of_win, fun _ => exec_dec_of_no_win, fun _ => exec_dec_of_busy⟩

/-! ### Encoding moves bytes and changes none -/

theorem decodeBlock_encodeFrame (f : Frame) : decodeBlock (encodeFrame f) = f := rfl

theorem take_five_encodeFrame (f : Frame) :
    (blockBytes (encodeFrame f)).take 5 = ((frameBytes f).take 4).reverse ++ [f.f4] := rfl

/-- Settles O19: the first five bytes of an encoding are the frame's first four reversed and its fifth, so they are a
permutation of the frame's bytes; decoding reverses the four again. -/
theorem codecRoundTrip : Obligations.CodecRoundTrip := by
  refine fun f => ⟨decodeBlock_encodeFrame f, ?_⟩
  rw [take_five_encodeFrame]
  exact (List.reverse_perm _).append_right [f.f4]

end Sys2Proof.Machine
end

section
/-! SPIX (42_spi_engine R77 to R82): its one exchange, the state each answer of the exchange leaves, and which answer
gives which error. -/

namespace Sys2Proof.Machine

/-! ### The exchange and its answer -/

/-- Phase SPI_XFER up to the answer: SPIX issued, TXW written, the one full-duplex exchange in the trace (R77, R78). -/
def exchanged (f : Frame) (s : State) : State :=
  { issueTransfer .spiXfer s with
    txw := Memory.writeBlock s.txw 0 (encodeFrame f), env := s.env.afterXfer,
    trace := s.trace ++ [.mXfer (encodeFrame f) .full (xferSeen .full s.env.nextXfer)] }

/-- What ERR reports of the exchange: Timeout on `M_TIMEOUT`, BusBusy on `M_FAIL` (R79, R80). -/
def xferCode (a : XferAns) : Code :=
  match a with
  | .ok _ => .ok
  | .timeout => .timeout
  | .fail => .busBusy

section
variable {s t : State} {f : Frame}

theorem spiXfer_issueTransfer (f : Frame) (s : State) :
    spiXfer f (issueTransfer .spiXfer s) = spiAnswered s.env.nextXfer (exchanged f s) := rfl

theorem exec_spix_of_ready (hs : ready s) (hm : s.cfg.mode = .spi) (hf : s.txf = some f) :
    exec .spix s = .next (spiAnswered s.env.nextXfer (exchanged f s)) := by
  rw [exec, execSpix, startSpix_eq hs.1 hs.2 hm hf, spiXfer_issueTransfer]

/-- A SPIX that completes had its operand and ended by the answer of its exchange (R77). -/
theorem exec_spix_next (h : exec .spix s = .next t) :
    ∃ f, s.txf = some f ∧ t = spiAnswered s.env.nextXfer (exchanged f s) := by
  have hstart : startSpix s (fun f s' => .next (spiXfer f s')) = .next t := h
  obtain ⟨-, -, -, f, hf, hrun⟩ := startSpix_next hstart
  exact ⟨f, hf, (Host.Outcome.next.inj hrun).symm⟩

end

section
variable (a : XferAns) (s : State)

@[simp] theorem spiAnswered_trace : (spiAnswered a s).trace = s.trace := by cases a <;> rfl

@[simp] theorem spiAnswered_txw : (spiAnswered a s).txw = s.txw := by cases a <;> rfl

theorem spiAnswered_status : (spiAnswered a s).status = completedStatus (xferCode a) s.status := by cases a <;> rfl

theorem errOf_spiAnswered : errOf (spiAnswered a s).status = codeBits (xferCode a) := by
  rw [spiAnswered_status, errOf_completed]

end

/-! ### One exchange -/

theorem eq_ok_of_xferSeen_full {a : XferAns} {r : Block} (h : xferSeen .full a = .ok (some r)) : a = .ok r := by
  cases a with
  | ok b => simpa [xferSeen] using h
  | timeout | fail => simp [xferSeen] at h

@[simp] theorem exchanged_rxf (f : Frame) (s : State) : (exchanged f s).rxf = [] := Memory.below_zero s.rxf

/-- RXF is empty at the answer, so after `M_OK(r)` it holds the decoding of `r` and nothing else (R77). -/
theorem spiAnswered_ok_rxf {s : State} (h : s.rxf = []) (r : Block) :
    (spiAnswered (.ok r) s).rxf = [(0, decodeBlock r)] := by
  simp [spiAnswered, h, Memory.readBlock_writeBlock, Memory.put, Memory.write, Memory.below]

theorem spiAnswered_ok_rxn (r : Block) (s : State) : (spiAnswered (.ok r) s).rxn = 1#16 := rfl

/-- Settles O24: whatever the answer, the exchange is the only event and TXW keeps what was sent; an answer that brought
a block is the one reported. -/
theorem spixOneExchange : Obligations.SpixOneExchange := by
  intro s t h
  obtain ⟨f, hf, rfl⟩ := exec_spix_next h
  refine ⟨f, xferSeen .full s.env.nextXfer, hf, spiAnswered_trace _ _, ?_, fun r hr => ?_⟩
  · rw [spiAnswered_txw]
    exact Memory.readBlock_writeBlock s.txw 0 (encodeFrame f)
  · rw [eq_ok_of_xferSeen_full hr, spiAnswered_ok_rxf (exchanged_rxf f s)]
    exact ⟨spiAnswered_ok_rxn r _, rfl⟩

/-! ### Errors -/

/-- An error right after the exchange: no result, the bytes sent kept in TXW, back in IDLE (R82, 60_exceptions R121). -/
theorem raiseError_exchanged {s : State} (hp : s.ph = .idle) (e : Code) (f : Frame) :
    raiseError e (exchanged f s) = { s with
      txw := Memory.writeBlock s.txw 0 (encodeFrame f), rxw := [], rxf := [], rxn := 0#16,
      status := (s.status &&& 0xF0#8) ||| (0x02#8 ||| ((codeBits e).zeroExtend 8 <<< 2)),
      trace := s.trace ++ [.mXfer (encodeFrame f) .full (xferSeen .full s.env.nextXfer)],
      env := s.env.afterXfer } := by
  rw [← BitVec.or_assoc, ← completed_issued, raiseError, complete, ← hp]
  simp [putRxn, exchanged, issueTransfer, issue]

theorem codeBits_xferCode_eq_one_iff (a : XferAns) : codeBits (xferCode a) = 1#2 ↔ a = .timeout := by
  cases a <;> simp [xferCode, codeBits]

theorem codeBits_xferCode_eq_two_iff (a : XferAns) : codeBits (xferCode a) = 2#2 ↔ a = .fail := by
  cases a <;> simp [xferCode, codeBits]

/-- Settles O23: a timeout and a failure each raise their error right after the exchange, and ERR is the code of the
answer, which tells the answers apart. -/
theorem spixErrors : Obligations.SpixErrors := by
  intro s f hs hm hf
  refine ⟨fun hx => ?_, fun hx => ?_, fun t ht => ?_⟩
  · rw [exec_spix_of_ready hs hm hf, hx, spiAnswered, raiseError_exchanged hs.2, hx]
    rfl
  · rw [exec_spix_of_ready hs hm hf, hx, spiAnswered, raiseError_exchanged hs.2, hx]
    rfl
  · obtain ⟨g, -, rfl⟩ := exec_spix_next ht
    rw [errOf_spiAnswered]
    exact ⟨codeBits_xferCode_eq_one_iff _, codeBits_xferCode_eq_two_iff _⟩

end Sys2Proof.Machine
end

section
/-! TPLX (43_tpl_engine R84 to R98): the whole next state of each way it can end, and from the same ends the one abort
after a failure and the chip-select framing of the transmit. -/

namespace Sys2Proof.Machine

/-! ### From the issue to the error -/

theorem exec_tplx_of_run {s t : State} {f : Frame} {n : Word16} (hs : ready s) (hm : s.cfg.mode ≠ .spi)
    (hf : s.txf = some f) (hn : s.nfr = some n) (h1 : 1 ≤ n.toNat) (h2 : n.toNat ≤ s.cfg.maxFrames)
    (hrun : tplRun n.toNat f (issueTransfer .tplArm s) = t) : exec .tplx s = .next t := by
  rw [exec, execTplx, startTplx_eq hs.1 hs.2 hm hf hn h1 h2, hrun]

/-- An error raised in a state `u` of an operation that was issued in `s`: no result is left, ERR is the code, and the
sequencer is back in IDLE (60_exceptions R121, R136). -/
theorem raiseError_of_issued {s u : State} (hp : s.ph = .idle) (hu : u.status = issuedStatus s.status) (e : Code) :
    raiseError e u = { u with
      rxw := [], rxf := [], rxn := 0#16, ph := s.ph,
      status := (s.status &&& 0xF0#8) ||| (0x02#8 ||| ((codeBits e).zeroExtend 8 <<< 2)) } := by
  rw [raiseError, complete, ← BitVec.or_assoc, ← completed_issued, ← hu, hp]
  simp [putRxn]

/-- Settles O26: the failed arm is the only event, and the error is raised in the issued state. -/
theorem tplxArmFailure : Obligations.TplxArmFailure := by
  intro s f n hs hm hf hn h1 h2 ha
  rw [exec_tplx_of_run hs hm hf hn h1 h2 (tplRun_armFail ha), raiseError_of_issued hs.2 rfl]
  rfl

/-! ### The transmit fails -/

/-- A TPLX issued in `s` at the answer of its transmit (R84 to R88, R90). -/
theorem transmitted_armed_issued (n : Nat) (f : Frame) (s : State) :
    transmitted f (armed n (issueTransfer .tplArm s)) = { s with
      txw := Memory.writeBlock s.txw 0 (encodeFrame f), rxw := [], rxf := [], rxn := 0#16,
      status := issuedStatus s.status, ph := .tplTx, sArmed := true,
      csTx := if s.cfg.mode = .tplSwcs then .deasserted else s.csTx,
      trace := s.trace ++ [.sArm (8 * n) .armOk]
        ++ framedTransmit s.cfg (encodeFrame f) (xferSeen .txOnly s.env.afterArm.nextXfer),
      env := s.env.afterArm.afterXfer } := by
  simp [transmitted, armed, issueTransfer, issue, putRxn]

/-- Settles O27: whatever the failing answer, the error is raised after the framed transmit and the abort; the answer
gives the code. -/
theorem tplxTransmitFailure : Obligations.TplxTransmitFailure := by
  intro s f n hs hm hf hn h1 h2 ha
  refine ⟨fun hx => ?_, fun hx => ?_⟩
  · rw [exec_tplx_of_run hs hm hf hn h1 h2 (tplRun_xferTimeout ha hx), transmitted_armed_issued,
      raiseError_of_issued (s := s) hs.2 rfl, hx]
    rfl
  · rw [exec_tplx_of_run hs hm hf hn h1 h2 (tplRun_xferFail ha hx), transmitted_armed_issued,
      raiseError_of_issued (s := s) hs.2 rfl, hx]
    rfl

/-! ### The slave never goes idle -/

/-- A TPLX issued in `s` whose transmit succeeded, as its poll loop begins (R92). -/
theorem polling_issued {s : State} {r : Block} (hx : s.env.afterArm.nextXfer = .ok r) (n : Nat) (f : Frame) :
    polling n f (issueTransfer .tplArm s) = { s with
      txw := Memory.writeBlock s.txw 0 (encodeFrame f), rxw := [], rxf := [], rxn := 0#16, bud := budget0 s.cfg,
      status := issuedStatus s.status, ph := .tplPoll, sArmed := true,
      csTx := if s.cfg.mode = .tplSwcs then .deasserted else s.csTx,
      trace := s.trace ++ [.sArm (8 * n) .armOk] ++ framedTransmit s.cfg (encodeFrame f) (.ok none),
      env := s.env.afterArm.afterXfer } := by
  rw [polling, transmitted_armed_issued, hx]
  rfl

/-- Settles O28: the loop polls busy until the budget is spent, then come the abort and the error. -/
theorem tplxPollTimeout : Obligations.TplxPollTimeout := by
  intro s f n r hs hm hf hn h1 h2 ha hx hb
  rw [exec_tplx_of_run hs hm hf hn h1 h2 (tplRun_pollTimeout ha hx hb), polling_issued hx,
    raiseError_of_issued (s := s) hs.2 rfl, polledBusy, issueTransfer_cfg, Nat.sub_self]
  rfl

/-! ### Success -/

theorem Memory.writeList_concat {α : Type} (m : Memory α) (a : Nat) (l : List α) (v : α) :
    m.writeList a (l ++ [v]) = (m.writeList a l).write (a + l.length) v := by
  induction l generalizing m a with
  | nil => rfl
  | cons w rest ih =>
    rw [List.cons_append, Memory.writeList, ih, Memory.writeList, List.length_cons,
      show a + 1 + rest.length = a + (rest.length + 1) by omega]

/-- A list written into an empty space is the space: element `k` at address `k`. -/
theorem Memory.writeList_nil_range {α : Type} (g : Nat → α) (n : Nat) :
    Memory.writeList [] 0 ((List.range n).map g) = (List.range n).map fun k => (k, g k) := by
  induction n with
  | zero => rfl
  | succ n ih =>
    have hinside : insideSpace ((List.range n).map fun k => (k, g k)) n := by simp [insideSpace]
    rw [List.range_succ, List.map_append, List.map_singleton, Memory.writeList_concat, ih, List.length_map,
      List.length_range, Nat.zero_add, Memory.write_beyond hinside, List.map_append, List.map_singleton]

/-- The received blocks decoded into an empty RXF, in order: `RXF[k]` is the decoding of block `k` (R94). -/
theorem decodeBlocks_sData (e : Env) (n : Nat) :
    decodeBlocks (Memory.writeList [] 0 (e.sData n)) n 0 [] =
      (List.range n).map fun k => (k, decodeBlock (e.blockAt k)) := by
  rw [decodeBlocks_eq (g := e.blockAt) n 0 [] fun i _ hi => readBlock_sData e n i (by omega),
    ← Memory.writeList_nil_range fun k => decodeBlock (e.blockAt k)]
  simp only [Nat.zero_add]

/-- The end of a TPLX issued in `s`, from RXF empty and the `n` blocks of `S_DATA` in RXW (R94). -/
theorem tplDecode_of_issued {s u : State} {e : Env} {n : Nat} (hp : s.ph = .idle)
    (hstatus : u.status = issuedStatus s.status) (hrxf : u.rxf = [])
    (hrxw : u.rxw = Memory.writeList [] 0 (e.sData n)) :
    tplDecode n u = { u with
      rxf := (List.range n).map fun k => (k, decodeBlock (e.blockAt k)), rxn := BitVec.ofNat 16 n,
      ph := s.ph, status := (s.status &&& 0xF0#8) ||| 0x02#8 } := by
  have hinside : insideSpace ((List.range n).map fun k => (k, decodeBlock (e.blockAt k))) n := by simp [insideSpace]
  have hdone : completedStatus .ok u.status = (s.status &&& 0xF0#8) ||| 0x02#8 := by
    simp [hstatus, completed_issued, codeBits]
  rw [tplDecode, complete, putRxn, hrxf, hrxw, decodeBlocks_sData, Memory.below_of_inside hinside, hp]
  simp only [hdone]

/-- Settles O29: the loop ends with the idle answer to poll `j`, and the decoding starts from the blocks that came with
it and an RXF that the issue emptied. -/
theorem tplxSuccess : Obligations.TplxSuccess := by
  intro s f n r j hs hm hf hn h1 h2 ha hx hj hb hi
  rw [exec_tplx_of_run hs hm hf hn h1 h2 (tplRun_pollIdle ha hx hj hb hi), received, polling_issued hx,
    tplDecode_of_issued (s := s) hs.2 rfl rfl rfl, BitVec.ofNat_toNat, BitVec.setWidth_eq]
  rfl

/-! ### The chip-select framing -/

theorem framedTransmit_eq_ite (c : Cfg) (w : Block) (a : XferSeen) :
    framedTransmit c w a = if c.mode = .tplSwcs
      then [.csAssert, .mXfer w .txOnly a, .delayUs c.settleUs, .csDeassert]
      else [.mXfer w .txOnly a] := by
  cases hm : c.mode <;> simp [framedTransmit, hm]

/-- Settles O33: a failed arm is the only event, and after a successful one the framed transmit comes before anything
else. -/
theorem chipSelectFraming : Obligations.ChipSelectFraming := by
  intro s t h
  obtain ⟨f, n, hf, hn, rfl⟩ := exec_tplx_next h
  obtain htr | ⟨a, ev, htr, hev⟩ := tplRun_trace_cases n.toNat f (issueTransfer .tplArm s)
  · exact ⟨n, f, [], hn, hf, .inl htr⟩
  · rw [framedTransmit_eq_ite] at htr
    exact ⟨n, f, ev, hn, hf, .inr ⟨a, htr, hev⟩⟩

/-! ### The one abort -/

/-- The three ways a run ends: after a failed arm; by an error after an abort, all polls before it busy; or by decoding
what came with an idle answer (43_tpl_engine R95). -/
theorem tplRun_ends (n : Nat) (f : Frame) (s : State) :
    tplRun n f s =
        raiseError .busBusy { s with env := s.env.afterArm, trace := s.trace ++ [.sArm (8 * n) .armFail] } ∨
      (∃ e u a k, e ≠ .ok ∧ tplRun n f s = raiseError e (sAbort u) ∧ u.csTx = (transmitted f (armed n s)).csTx ∧
        u.trace = s.trace ++ .sArm (8 * n) .armOk ::
          (framedTransmit s.cfg (encodeFrame f) a ++ List.replicate k (.sPoll .busy))) ∨
      ∃ j, tplRun n f s = tplDecode n (received n f j s) := by
  cases ha : s.env.armAt 0 with
  | armFail => exact .inl (tplRun_armFail ha)
  | armOk =>
    refine .inr ?_
    cases hx : s.env.afterArm.nextXfer with
    | timeout => exact .inl ⟨.timeout, _, .timeout, 0, by decide, tplRun_xferTimeout ha hx, rfl, by simp [hx, xferSeen]⟩
    | fail => exact .inl ⟨.busBusy, _, .fail, 0, by decide, tplRun_xferFail ha hx, rfl, by simp [hx, xferSeen]⟩
    | ok r =>
      obtain hb | ⟨j, hj, hb, hi⟩ := polls_cases (polling n f s).env (budget0 s.cfg)
      · exact .inl ⟨.timeout, _, .ok none, budget0 s.cfg, by decide, tplRun_pollTimeout ha hx hb, rfl,
          by simp [polledBusy, polling, hx, xferSeen]⟩
      · exact .inr ⟨j, tplRun_pollIdle ha hx hj hb hi⟩

theorem filter_isAbort_before_end (c : Cfg) (w : Block) (a : XferSeen) (k : Nat) :
    (framedTransmit c w a ++ List.replicate k (Event.sPoll .busy)).filter isAbort = [] := by
  rw [framedTransmit_eq_ite]
  split <;> simp [isAbort]

theorem idle_notMem_framedTransmit (c : Cfg) (w : Block) (a : XferSeen) : .sPoll .idle ∉ framedTransmit c w a := by
  rw [framedTransmit_eq_ite]
  split <;> simp

theorem received_trace (n : Nat) (f : Frame) (j : Nat) (s : State) :
    (received n f j s).trace = s.trace ++ .sArm (8 * n) .armOk ::
      (framedTransmit s.cfg (encodeFrame f) (xferSeen .txOnly s.env.afterArm.nextXfer)
        ++ List.replicate j (.sPoll .busy) ++ [.sPoll .idle]) := by
  simp [received, polling]

/-- The transmit leaves the chip-select deasserted if it was before the operation (R88, R96). -/
theorem transmitted_issued_csTx {s : State} (h : s.csTx = .deasserted) (n : Nat) (f : Frame) :
    (transmitted f (armed n (issueTransfer .tplArm s))).csTx = .deasserted := by
  simp [transmitted_armed_issued, h]

theorem errOf_raiseError_ne_zero {e : Code} (he : e ≠ .ok) (s : State) : errOf (raiseError e s).status ≠ 0#2 := by
  rw [raiseError_status, errOf_completed]
  cases e <;> simp [codeBits] at he ⊢

theorem errOf_tplDecode (n : Nat) (s : State) : errOf (tplDecode n s).status = 0#2 := errOf_completed .ok _

/-- Settles O31: of the three ways a run ends only the error after a successful arm has an abort, and there the abort is
the last event and every poll before it is busy. -/
theorem abortExactlyOnFailureAfterArm : Obligations.AbortExactlyOnFailureAfterArm := by
  intro s t h
  obtain ⟨f, n, -, hn, rfl⟩ := exec_tplx_next h
  obtain hrun | ⟨e, u, a, k, he, hrun, hcs, htr⟩ | ⟨j, hrun⟩ := tplRun_ends n.toNat f (issueTransfer .tplArm s)
  · refine ⟨n, .armFail, [], hn, ?_⟩
    simp [hrun]
  · have herr := errOf_raiseError_ne_zero he (sAbort u)
    refine ⟨n, .armOk, framedTransmit s.cfg (encodeFrame f) a ++ List.replicate k (.sPoll .busy) ++ [.sAbort], hn, ?_⟩
    rw [hrun]
    refine ⟨by simp [htr], ?_, fun _ => ?_, rfl, fun hd => hcs.trans (transmitted_issued_csTx hd n.toNat f)⟩
    · rw [if_pos ⟨rfl, herr⟩, List.filter_append, filter_isAbort_before_end]
      rfl
    · simp [idle_notMem_framedTransmit, List.mem_replicate]
  · have herr := errOf_tplDecode n.toNat (received n.toNat f j (issueTransfer .tplArm s))
    refine ⟨n, .armOk, _, hn, by rw [hrun, tplDecode_trace, received_trace]; rfl, ?_⟩
    rw [hrun]
    refine ⟨?_, fun hfail => absurd herr hfail.2, rfl, fun hd => transmitted_issued_csTx hd n.toNat f⟩
    rw [if_neg fun hfail => hfail.2 herr, List.filter_append, filter_isAbort_before_end]
    rfl

end Sys2Proof.Machine
end

section
/-! TINV (45_temp_inverter R108 to R115): the run from the issue to the reading, below the table, above it and inside
it. -/

namespace Sys2Proof.Machine

/-! ### The reading -/

/-- The low five bits of STATUS after a reading: DONE = 1, and INRANGE tells whether RAW lay in the table (R108). -/
def readingBits (ok : Bool) : Byte := if ok then 0x12#8 else 0x02#8

theorem completedStatus_putInRange_issuedStatus (ok : Bool) :
    ∀ w : Byte, completedStatus .ok (putInRange ok (issuedStatus w)) = (w &&& 0xE0#8) ||| readingBits ok := by
  cases ok <;> decide

/-- A reading in a state `u` of a TINV that was issued in `s`: the sequencer is back in IDLE (R18, R108). -/
theorem reading_of_issued {s u : State} (hp : s.ph = .idle) (hu : u.status = issuedStatus s.status) (tenths : Int)
    (ok : Bool) :
    reading tenths ok u = { u with
      temp := some (BitVec.ofInt 16 tenths), ph := s.ph, status := (s.status &&& 0xE0#8) ||| readingBits ok } := by
  rw [reading, complete, ← completedStatus_putInRange_issuedStatus, ← hu, hp]

/-! ### Outside the table -/

section
variable {raw : Nat} {s : State}

theorem invRun_below (h : raw < entryAt s (nt s.cfg - 1)) : invRun raw s = reading (10 * s.cfg.tMax) false s := by
  have hrange : invRange raw s = reading (10 * s.cfg.tMax) false s := if_pos h
  rw [invRun, hrange]
  rfl

/-- Above the first entry RAW is not below the last one, which is tested first (R109, R110). -/
theorem invRun_above (ht : tableFit s.cfg s.tbl = true) (h : entryAt s 0 < raw) :
    invRun raw s = reading (10 * s.cfg.tMin) false s := by
  obtain ⟨h2, -, -⟩ := tableFit_iff.1 ht
  have hends : entryAt s (nt s.cfg - 1) ≤ entryAt s 0 := entryAt_antitone ht (Nat.zero_le _) (by omega)
  have hrange : invRange raw s = reading (10 * s.cfg.tMin) false s := by
    rw [invRange, if_neg (by omega), if_pos h]
  rw [invRun, hrange]
  rfl

end

theorem exec_tinv_of_run {s t : State} {r : Word16} (hs : ready s) (hv : tblValidOf s.status = true)
    (hr : s.raw = some r) (ht : tableFit s.cfg s.tbl = true) (hrun : invRun r.toNat (issue .invRange s) = t) :
    exec .tinv s = .next t := by
  rw [exec, execTinv, startTinv_eq hs.1 hs.2 hv hr ht, hrun]

/-- Settles O40: the first test of INV_RANGE succeeds in the issued state. -/
theorem tinvBelowTable : Obligations.TinvBelowTable := by
  intro s r hs hv hr ht hlow
  rw [exec_tinv_of_run hs hv hr ht (invRun_below hlow), reading_of_issued hs.2 rfl]
  rfl

/-- Settles O41: the first test of INV_RANGE fails because the entries never rise, and the second succeeds. -/
theorem tinvAboveTable : Obligations.TinvAboveTable := by
  intro s r hs hv hr ht hhigh
  rw [exec_tinv_of_run hs hv hr ht (invRun_above (s := issue .invRange s) ht hhigh), reading_of_issued hs.2 rfl]
  rfl

/-! ### Inside the table -/

/-- Both tests of INV_RANGE fail, and the bisection finds the bracket of the reading (R111 to R113). -/
theorem invRun_inside {raw : Nat} {s : State} (ht : tableFit s.cfg s.tbl = true)
    (hlow : entryAt s (nt s.cfg - 1) ≤ raw) (hhigh : raw ≤ entryAt s 0) :
    ∃ l m, l + 1 < nt s.cfg ∧ entryAt s (l + 1) ≤ raw ∧ raw ≤ entryAt s l ∧ (0 < l → raw < entryAt s l) ∧
      invRun raw s = invInterp raw { s with sl := l, sr := l + 1, sm := m, ph := .invInterp } := by
  obtain (⟨hb, -⟩ | ⟨-, ha, -⟩) | ⟨l, m, hl, hleft, hright, hstrict, hrun⟩ := invRun_cases (raw := raw) ht
  · exact absurd hlow hb.not_ge
  · exact absurd hhigh ha.not_ge
  · exact ⟨l, m, hl, hright, hleft, hstrict, hrun⟩

/-- Settles O42: the reading is interpolated in the bracket where the bisection ends. -/
theorem tinvInRange : Obligations.TinvInRange := by
  intro s r hs hv hr ht hlow hhigh
  obtain ⟨l, m, hl, hright, hleft, hstrict, hrun⟩ := invRun_inside (s := issue .invRange s) ht hlow hhigh
  refine ⟨l, m, hl, hright, hleft, hstrict, ?_⟩
  rw [exec_tinv_of_run hs hv hr ht hrun, invInterp, reading_of_issued (s := s) hs.2 rfl]
  rfl

end Sys2Proof.Machine
end

section
/-! The operations that cannot fail (60_exceptions R137): where ENC, DEC, TBLD and TINV end, and that they end with
code OK. -/

namespace Sys2Proof.Machine

/-! ### Where an operation ends -/

section
variable {s t : State}

/-- An ENC that completes had TXF and wrote its encoding (41_frame_codec R71). -/
theorem exec_enc_next (h : exec .enc s = .next t) :
    ∃ f, s.txf = some f ∧ t = complete .ok { s with wout := some (encodeFrame f) } := by
  rw [exec, execEnc] at h
  obtain ⟨-, -, f, hf, hrun⟩ := startEnc_next h
  exact ⟨f, hf, (Host.Outcome.next.inj hrun).symm⟩

/-- A DEC that completes had WIN and wrote its decoding (41_frame_codec R72). -/
theorem exec_dec_next (h : exec .dec s = .next t) :
    ∃ w, s.win = some w ∧ t = complete .ok { s with fout := some (decodeBlock w) } := by
  rw [exec, execDec] at h
  obtain ⟨-, -, w, hw, hrun⟩ := startDec_next h
  exact ⟨w, hw, (Host.Outcome.next.inj hrun).symm⟩

/-- A TBLD that completes filled the table from the issued state (44_temp_table R100). -/
theorem exec_tbld_next (h : exec .tbld s = .next t) : t = tblFill (issue .tblFill s) := by
  rw [exec, execTbld] at h
  obtain ⟨-, -, -, -, hrun⟩ := startTbld_next h
  exact (Host.Outcome.next.inj hrun).symm

/-- A TINV that completes had RAW and a fit table, and ran from the issued state (45_temp_inverter R108). -/
theorem exec_tinv_next (h : exec .tinv s = .next t) :
    ∃ r, s.raw = some r ∧ tableFit s.cfg s.tbl = true ∧ t = invRun r.toNat (issue .invRange s) := by
  rw [exec, execTinv] at h
  obtain ⟨-, -, -, r, hr, ht, hrun⟩ := startTinv_next h
  exact ⟨r, hr, ht, (Host.Outcome.next.inj hrun).symm⟩

end

/-- On a fit table every run of TINV ends with a reading, and until then only the search registers and the phase have
changed (45_temp_inverter R108 to R115). -/
theorem invRun_ends_with_reading {raw : Nat} {s : State} (ht : tableFit s.cfg s.tbl = true) :
    ∃ tenths ok l r m p, invRun raw s = reading tenths ok { s with sl := l, sr := r, sm := m, ph := p } := by
  obtain (⟨-, hrun⟩ | ⟨-, -, hrun⟩) | ⟨l, m, -, -, -, -, hrun⟩ := invRun_cases (raw := raw) ht
  · exact ⟨_, false, s.sl, s.sr, s.sm, s.ph, hrun⟩
  · exact ⟨_, false, s.sl, s.sr, s.sm, s.ph, hrun⟩
  · exact ⟨_, true, l, l + 1, m, .invInterp, hrun⟩

/-! ### The code they end with -/

/-- ENC, DEC, TBLD and TINV have no end but `complete(OK)` (60_exceptions R121, R137). -/
theorem exec_next_eq_complete_ok {i : Instr} {s t : State} (hspix : i ≠ .spix) (htplx : i ≠ .tplx)
    (h : exec i s = .next t) : ∃ u, t = complete .ok u := by
  cases i with
  | enc =>
    obtain ⟨f, -, ht⟩ := exec_enc_next h
    exact ⟨_, ht⟩
  | dec =>
    obtain ⟨w, -, ht⟩ := exec_dec_next h
    exact ⟨_, ht⟩
  | spix => exact absurd rfl hspix
  | tplx => exact absurd rfl htplx
  | tbld => exact ⟨_, exec_tbld_next h⟩
  | tinv =>
    obtain ⟨r, -, hfit, ht⟩ := exec_tinv_next h
    obtain ⟨tenths, ok, l, sr, m, p, hrun⟩ := invRun_ends_with_reading (s := issue .invRange s) hfit
    exact ⟨_, ht.trans hrun⟩

/-- Settles O48: each of the four ends with `complete(OK)`, which leaves ERR = 0. -/
theorem onlyTransfersFail : Obligations.OnlyTransfersFail := by
  intro i s t hspix htplx h
  obtain ⟨u, rfl⟩ := exec_next_eq_complete_ok hspix htplx h
  rw [complete_status, errOf_completed, codeBits]

end Sys2Proof.Machine
end

section
/-! Reset (70_reset_and_hazards R138 to R140): the state that it leaves, and that it is refused while an operation is in
progress. -/

namespace Sys2Proof.Machine

theorem seqStep_of_idle {s : State} (h : s.ph = .idle) : seqStep s = .next s := by
  simp only [seqStep, h]

/-- Right after reset no host access is waiting and no operation is in progress (R139). -/
theorem step_resetWith (c : Cfg) : step (State.resetWith c) = .next (State.resetWith c) :=
  seqStep_of_idle (s := State.resetWith c) rfl

/-- Settles O8: every item of the reset state has its value by definition, a space without cells holds no value, and
the sequencer waits. -/
theorem resetLeavesEveryItem : Obligations.ResetLeavesEveryItem := by
  intro c
  have hunbuilt : tblValidOf 0x00#8 = false := by decide
  exact ⟨rfl, rfl, rfl, rfl, rfl, rfl, rfl, rfl, rfl, rfl, rfl, rfl, rfl, rfl, Memory.read_nil, Memory.read_nil,
    Memory.read_nil, Memory.read_nil, hunbuilt, rfl, step_resetWith c⟩

theorem resetInput_of_busy {s : State} (hb : busyOf s.status = true) : resetInput s = .refused .resetInProgress :=
  if_pos hb

/-- Settles O9: the reset at the head of the host's queue is served, and its first test is BUSY. -/
theorem resetInProgressRefused : Obligations.ResetInProgressRefused := by
  intro s rest hhost hb
  exact (step_of_host_cons hhost).trans (resetInput_of_busy hb)

end Sys2Proof.Machine
end

section
/-! The polls of TPLX (43_tpl_engine R92, 70_reset_and_hazards R153): how many there are on each way the operation can
end, bounded by the budget. -/

namespace Sys2Proof.Machine

/-- The events after the framed transmit that was answered `a`, with a budget of `B` polls (43_tpl_engine R90 to R94). -/
inductive PollEnding (B : Nat) (a : XferSeen) : List Event → Prop
  /-- The transmit failed: no poll. -/
  | unsent (ha : a ≠ .ok none) : PollEnding B a [.sAbort]
  /-- The slave never went idle: the whole budget is spent. -/
  | spent : PollEnding B a (List.replicate B (.sPoll .busy) ++ [.sAbort])
  /-- The poll after `j` busy ones answered idle. -/
  | idle (j : Nat) (hj : j < B) : PollEnding B a (List.replicate j (.sPoll .busy) ++ [.sPoll .idle])

/-- Either the arm failed and was the only event, or the framed transmit and one of the endings followed it. -/
theorem tplRun_pollEnding (n : Nat) (f : Frame) (s : State) :
    (tplRun n f s).trace = s.trace ++ [.sArm (8 * n) .armFail] ∨
      ∃ a ev, PollEnding (budget0 s.cfg) a ev ∧ (tplRun n f s).trace =
        s.trace ++ .sArm (8 * n) .armOk :: (framedTransmit s.cfg (encodeFrame f) a ++ ev) := by
  cases ha : s.env.armAt 0 with
  | armFail => exact .inl (by simp [tplRun_armFail ha])
  | armOk =>
    refine .inr ⟨xferSeen .txOnly s.env.afterArm.nextXfer, ?_⟩
    cases hx : s.env.afterArm.nextXfer with
    | timeout => exact ⟨_, .unsent (by simp [xferSeen]), by simp [tplRun_xferTimeout ha hx, hx]⟩
    | fail => exact ⟨_, .unsent (by simp [xferSeen]), by simp [tplRun_xferFail ha hx, hx]⟩
    | ok r =>
      obtain hb | ⟨j, hj, hb, hi⟩ := polls_cases (polling n f s).env (budget0 s.cfg)
      · exact ⟨_, .spent, by simp [tplRun_pollTimeout ha hx hb, polledBusy, polling, hx]⟩
      · exact ⟨_, .idle j hj, by simp [tplRun_pollIdle ha hx hj hb hi, received_trace, hx]⟩

theorem filter_isPoll_busy (k : Nat) :
    (List.replicate k (Event.sPoll .busy)).filter isPoll = List.replicate k (.sPoll .busy) :=
  List.filter_replicate_of_pos rfl

section
variable {B : Nat} {a : XferSeen} {ev : List Event}

theorem PollEnding.length_filter_isPoll_le (h : PollEnding B a ev) : (ev.filter isPoll).length ≤ B := by
  cases h with
  | unsent => exact Nat.zero_le B
  | spent => simp [filter_isPoll_busy, isPoll]
  | idle j hj => simpa [filter_isPoll_busy, List.filter_cons, isPoll] using hj

/-- After a transmit that succeeded, an ending without an idle answer has spent the budget. -/
theorem PollEnding.filter_isPoll_eq (h : PollEnding B (.ok none) ev) (hidle : .sPoll .idle ∉ ev) :
    ev.filter isPoll = List.replicate B (.sPoll .busy) := by
  cases h with
  | unsent ha => exact absurd rfl ha
  | spent => simp [filter_isPoll_busy, isPoll]
  | idle => simp at hidle

end

section
variable (c : Cfg) (w : Block) (a : XferSeen)

theorem filter_isPoll_framedTransmit : (framedTransmit c w a).filter isPoll = [] := by
  rw [framedTransmit_eq_ite]
  split <;> simp [isPoll]

theorem mXfer_mem_framedTransmit_iff (b : XferSeen) : .mXfer w .txOnly b ∈ framedTransmit c w a ↔ b = a := by
  rw [framedTransmit_eq_ite]
  split <;> simp

end

theorem PollEnding.mXfer_notMem {B : Nat} {a : XferSeen} {ev : List Event} (h : PollEnding B a ev) (w : Block)
    (dup : Duplex) (b : XferSeen) : .mXfer w dup b ∉ ev := by
  cases h <;> simp [List.mem_replicate]

/-- Settles O32: a failed arm is the only event; after a successful one only the ending has polls, and of the endings
after a successful transmit the one without an idle answer has spent the budget. -/
theorem pollsWithinBudget : Obligations.PollsWithinBudget := by
  intro s t h
  obtain ⟨f, n, hf, -, rfl⟩ := exec_tplx_next h
  obtain htr | ⟨a, ev, hend, htr⟩ := tplRun_pollEnding n.toNat f (issueTransfer .tplArm s)
  · exact ⟨f, _, hf, htr, Nat.zero_le _, fun hmem => by simp at hmem⟩
  · have hpolls : (.sArm (8 * n.toNat) .armOk :: (framedTransmit s.cfg (encodeFrame f) a ++ ev)).filter isPoll
        = ev.filter isPoll := by
      rw [List.filter_cons_of_neg (by simp [isPoll]), List.filter_append, filter_isPoll_framedTransmit, List.nil_append]
    refine ⟨f, _, hf, htr, ?_, fun hsent hidle => ?_⟩
    · rw [issueTransfer_cfg, hpolls]
      exact hend.length_filter_isPoll_le
    · rw [issueTransfer_cfg] at hsent hidle ⊢
      simp only [List.mem_cons, reduceCtorEq, List.mem_append, mXfer_mem_framedTransmit_iff, hend.mXfer_notMem, false_or,
        or_false, not_or] at hsent hidle
      obtain rfl := hsent
      rw [hpolls]
      exact hend.filter_isPoll_eq hidle.2

end Sys2Proof.Machine
end

section
/-! The configuration is constant (70_reset_and_hazards R143): each phase of the sequencer keeps CFG, and so does each
operation, each host access and the reset input. -/

namespace Sys2Proof.Machine

/-! ### The phases -/

section
variable (s : State)

@[simp] theorem spiAnswered_cfg (a : XferAns) : (spiAnswered a s).cfg = s.cfg := by cases a <;> rfl

@[simp] theorem spiXfer_cfg (f : Frame) : (spiXfer f s).cfg = s.cfg := spiAnswered_cfg _ _

@[simp] theorem tplArm_cfg (n : Nat) : (tplArm n s).cfg = s.cfg := by
  cases ha : s.env.armAt 0 with
  | armOk => rw [tplArm_ok ha]
  | armFail => rw [tplArm_fail ha, raiseError_cfg]

@[simp] theorem tplSent_cfg (m : XferAns) : (tplSent m s).cfg = s.cfg := by cases m <;> rfl

@[simp] theorem tplTx_cfg (f : Frame) : (tplTx f s).cfg = s.cfg := by
  rw [tplTx_eq, tplSent_cfg, transmitted]

@[simp] theorem tplPoll_cfg (n : Nat) : (tplPoll n s).cfg = s.cfg := by
  by_cases hbud : s.bud = 0
  · rw [tplPoll_spent hbud]
  · cases hp : s.env.pollAt 0 with
    | busy => rw [tplPoll_busy hbud hp, polledBusy]
    | idle => rw [tplPoll_idle hbud hp]

@[simp] theorem tplTimeout_cfg : (tplTimeout s).cfg = s.cfg := rfl

@[simp] theorem tplDecode_cfg (n : Nat) : (tplDecode n s).cfg = s.cfg := rfl

@[simp] theorem tblFill_cfg : (tblFill s).cfg = s.cfg := rfl

@[simp] theorem reading_cfg (tenths : Int) (ok : Bool) : (reading tenths ok s).cfg = s.cfg := rfl

@[simp] theorem invRange_cfg (raw : Nat) : (invRange raw s).cfg = s.cfg := by
  unfold invRange
  split_ifs <;> simp

@[simp] theorem invBisect_cfg (raw : Nat) : (invBisect raw s).cfg = s.cfg := by
  unfold invBisect
  split_ifs <;> rfl

@[simp] theorem invInterp_cfg (raw : Nat) : (invInterp raw s).cfg = s.cfg := rfl

end

/-- A looping phase keeps CFG where each turn of the loop does. -/
theorem runPhase_cfg {p : Phase} {body : State → State} (hbody : ∀ s, (body s).cfg = s.cfg) (fuel : Nat) (s : State) :
    (runPhase p body fuel s).cfg = s.cfg := by
  induction fuel generalizing s with
  | zero => rfl
  | succ fuel ih =>
    by_cases hp : s.ph = p
    · rw [runPhase_in hp, ih, hbody]
    · rw [runPhase_out hp]

theorem seqStep_cfg {s t : State} (h : seqStep s = .next t) : t.cfg = s.cfg := by
  unfold seqStep at h
  cases hp : s.ph <;> simp only [hp] at h
  case idle => cases h; rfl
  case spiXfer | tplTx =>
    obtain ⟨f, -, h⟩ := withOperand_next h
    cases h; simp
  case tplArm | tplPoll | tplDecode =>
    obtain ⟨n, -, h⟩ := withOperand_next h
    obtain ⟨-, h⟩ := whenInsideRxw_next h
    cases h; simp
  case tplTimeout => cases h; simp
  case tblFill =>
    obtain ⟨-, h⟩ := whenThermalLegal_next h
    cases h; simp
  case invRange =>
    obtain ⟨r, -, h⟩ := withOperand_next h
    obtain ⟨-, h⟩ := whenTableFit_next h
    cases h; simp
  case invBisect | invInterp =>
    obtain ⟨r, -, h⟩ := withOperand_next h
    obtain ⟨-, h⟩ := whenTableFit_next h
    obtain ⟨-, h⟩ := whenInsideTbl_next h
    cases h; simp

/-! ### The operations -/

@[simp] theorem tplPolls_cfg (n : Nat) (s : State) : (tplPolls n s).cfg = s.cfg :=
  runPhase_cfg (fun s => tplPoll_cfg s n) _ s

@[simp] theorem tplFinish_cfg (n : Nat) (s : State) : (tplFinish n s).cfg = s.cfg := by
  unfold tplFinish
  split_ifs <;> simp

theorem tplRun_cfg (n : Nat) (f : Frame) (s : State) : (tplRun n f s).cfg = s.cfg := by
  simp only [tplRun]
  split_ifs <;> simp

theorem invRun_cfg {raw : Nat} {s : State} (ht : tableFit s.cfg s.tbl = true) : (invRun raw s).cfg = s.cfg := by
  obtain ⟨tenths, ok, l, r, m, p, hrun⟩ := invRun_ends_with_reading (raw := raw) ht
  rw [hrun, reading_cfg]

theorem exec_cfg {i : Instr} {s t : State} (h : exec i s = .next t) : t.cfg = s.cfg := by
  cases i with
  | enc =>
    obtain ⟨f, -, rfl⟩ := exec_enc_next h
    rfl
  | dec =>
    obtain ⟨w, -, rfl⟩ := exec_dec_next h
    rfl
  | spix =>
    obtain ⟨f, -, rfl⟩ := exec_spix_next h
    exact spiAnswered_cfg _ _
  | tplx =>
    obtain ⟨f, n, -, -, rfl⟩ := exec_tplx_next h
    exact tplRun_cfg _ _ _
  | tbld =>
    obtain rfl := exec_tbld_next h
    rfl
  | tinv =>
    obtain ⟨r, -, hfit, rfl⟩ := exec_tinv_next h
    exact invRun_cfg (s := issue .invRange s) hfit

/-- ENC and DEC complete in the issuing step; the others are left in the issued state (R19, R22). -/
theorem issueOnly_cfg {i : Instr} {s t : State} (h : issueOnly i s = .next t) : t.cfg = s.cfg := by
  cases i with
  | enc => exact exec_cfg (i := .enc) h
  | dec => exact exec_cfg (i := .dec) h
  | spix =>
    rw [issueOnly] at h
    obtain ⟨-, -, -, f, -, hrun⟩ := startSpix_next h
    cases hrun; rfl
  | tplx =>
    rw [issueOnly] at h
    obtain ⟨-, -, -, f, n, -, -, -, -, hrun⟩ := startTplx_next h
    cases hrun; rfl
  | tbld =>
    rw [issueOnly] at h
    obtain ⟨-, -, -, -, hrun⟩ := startTbld_next h
    cases hrun; rfl
  | tinv =>
    rw [issueOnly] at h
    obtain ⟨-, -, -, r, -, -, hrun⟩ := startTinv_next h
    cases hrun; rfl

/-! ### The host's accesses -/

/-- A write of CMD that is answered issues an operation, shown whole (R19). -/
theorem runCommand_next {c : Byte} {s t : State} (h : runCommand c s = .next t) : ∃ i, exec i s = .next t := by
  unfold runCommand at h
  split at h
  · cases h
  · split at h
    · exact ⟨_, h⟩
    · cases h

/-- A write of CMD that is answered issues an operation, shown phase by phase (R19, R22). -/
theorem postCommand_next {c : Byte} {s t : State} (h : postCommand c s = .next t) : ∃ i, issueOnly i s = .next t := by
  unfold postCommand at h
  split at h
  · cases h
  · split at h
    · exact ⟨_, h⟩
    · cases h

/-- An answered write of a register other than CMD changes one operand register (R30, R31). -/
theorem hostWrite_next {n : Nat} {v : RegVal} {s t : State} (h : hostWrite n v s = .next t) :
    ∃ txf nfr win raw, t = { s with txf := txf, nfr := nfr, win := win, raw := raw } := by
  unfold hostWrite at h
  split at h
  · cases h
  · split at h <;> cases h <;> exact ⟨_, _, _, _, rfl⟩

theorem deliverHeld_next {n : Nat} {v : Option RegVal} {s t : State} (h : deliverHeld n v s = .next t) :
    ∃ x, t = deliver n x s := by
  cases v with
  | none => cases h
  | some x => cases h; exact ⟨x, rfl⟩

theorem readRegister_next {n : Nat} {s t : State} (h : readRegister n s = .next t) : ∃ x, t = deliver n x s := by
  unfold readRegister at h
  split_ifs at h
  all_goals exact deliverHeld_next h

/-- An answered read changes nothing but the record of what was read (20_memory R43). -/
theorem hostRead_next {n : Nat} {s t : State} (h : hostRead n s = .next t) : ∃ x, t = deliver n x s := by
  unfold hostRead at h
  split_ifs at h with hstatus
  · cases h; exact ⟨_, by rw [hstatus]⟩
  · exact readRegister_next h

theorem resetInput_next {s t : State} (h : resetInput s = .next t) :
    t = { State.resetWith s.cfg with env := s.env, host := s.host, seen := s.seen } := by
  unfold resetInput at h
  split_ifs at h
  cases h; rfl

theorem hostWait_cfg {s t : State} (h : hostWait s = .next t) : t.cfg = s.cfg := by
  unfold hostWait at h
  split at h
  · cases h; rfl
  · exact seqStep_cfg (s := { s with host := .wait :: s.host }) h

theorem serve_cfg {a : HostAccess} {s t : State} (h : serve a s = .next t) : t.cfg = s.cfg := by
  unfold serve at h
  split at h
  next =>
    obtain ⟨i, h⟩ := runCommand_next h
    exact exec_cfg h
  next =>
    obtain ⟨_, _, _, _, rfl⟩ := hostWrite_next h
    rfl
  next =>
    obtain ⟨i, h⟩ := postCommand_next h
    exact issueOnly_cfg h
  next =>
    obtain ⟨x, rfl⟩ := hostRead_next h
    rfl
  next => exact hostWait_cfg h
  next => exact seqStep_cfg h
  next =>
    obtain rfl := resetInput_next h
    rfl

/-- Settles O57: the sequencer's phases keep CFG, and so does every access of the host; the reset input is given the
CFG of the state before it. -/
theorem configurationConstant : Obligations.ConfigurationConstant := by
  intro s t h
  cases hhost : s.host with
  | nil =>
    rw [step, hhost] at h
    exact seqStep_cfg h
  | cons a rest =>
    rw [step_of_host_cons hhost] at h
    exact serve_cfg (s := { s with host := rest }) h

end Sys2Proof.Machine
end

section
/-! What an operation can change (00_scope R2): a transfer writes the items of the transport, TBLD and TINV those of the
temperature components, and each phase keeps the state outside its items. -/

namespace Sys2Proof.Machine

/-- The state with the items that a transfer writes set aside; of STATUS the four bits that it keeps stay. -/
def outsideTransport (s : State) : State :=
  { s with rxf := [], rxn := 0#16, status := s.status &&& 0xF0#8, ph := .idle, bud := 0, txw := [], rxw := [],
           sArmed := false, csTx := .deasserted, trace := [], env := Env.fresh }

/-- The state with the items that TBLD and TINV write set aside. -/
def outsideThermal (s : State) : State :=
  { s with temp := none, status := 0#8, ph := .idle, sl := 0, sr := 0, sm := 0, tbl := [] }

/-! ### Transfers -/

theorem issuedStatus_high : ∀ w : Byte, issuedStatus w &&& 0xF0#8 = w &&& 0xF0#8 := by decide

theorem completedStatus_high (e : Code) : ∀ w : Byte, completedStatus e w &&& 0xF0#8 = w &&& 0xF0#8 := by
  cases e <;> decide

section
variable (s : State)

@[simp] theorem outsideTransport_issueTransfer (p : Phase) :
    outsideTransport (issueTransfer p s) = outsideTransport s := by
  simp [outsideTransport, issueTransfer, issue, putRxn, issuedStatus_high]

@[simp] theorem outsideTransport_complete (e : Code) : outsideTransport (complete e s) = outsideTransport s := by
  simp [outsideTransport, complete, completedStatus_high]

@[simp] theorem outsideTransport_raiseError (e : Code) : outsideTransport (raiseError e s) = outsideTransport s :=
  outsideTransport_complete _ e

@[simp] theorem outsideTransport_spiAnswered (a : XferAns) :
    outsideTransport (spiAnswered a s) = outsideTransport s := by
  cases a with
  | ok r => exact outsideTransport_complete _ .ok
  | timeout | fail => exact outsideTransport_raiseError s _

@[simp] theorem outsideTransport_spiXfer (f : Frame) : outsideTransport (spiXfer f s) = outsideTransport s :=
  outsideTransport_spiAnswered _ _

@[simp] theorem outsideTransport_tplArm (n : Nat) : outsideTransport (tplArm n s) = outsideTransport s := by
  cases ha : s.env.armAt 0 with
  | armOk => simp only [tplArm_ok ha, outsideTransport]
  | armFail => rw [tplArm_fail ha, outsideTransport_raiseError]; simp only [outsideTransport]

@[simp] theorem outsideTransport_transmitted (f : Frame) :
    outsideTransport (transmitted f s) = outsideTransport s := by
  simp only [outsideTransport, transmitted]

@[simp] theorem outsideTransport_sAbort : outsideTransport (sAbort s) = outsideTransport s := by
  simp only [outsideTransport, sAbort, emit]

@[simp] theorem outsideTransport_tplSent (m : XferAns) : outsideTransport (tplSent m s) = outsideTransport s := by
  cases m with
  | ok r => rfl
  | timeout | fail => rw [tplSent, outsideTransport_raiseError, outsideTransport_sAbort]

@[simp] theorem outsideTransport_tplTx (f : Frame) : outsideTransport (tplTx f s) = outsideTransport s := by
  rw [tplTx_eq, outsideTransport_tplSent, outsideTransport_transmitted]

@[simp] theorem outsideTransport_tplPoll (n : Nat) : outsideTransport (tplPoll n s) = outsideTransport s := by
  by_cases hbud : s.bud = 0
  · simp only [tplPoll_spent hbud, outsideTransport]
  · cases hp : s.env.pollAt 0 with
    | busy => simp only [tplPoll_busy hbud hp, polledBusy, outsideTransport]
    | idle => simp only [tplPoll_idle hbud hp, outsideTransport]

@[simp] theorem outsideTransport_tplTimeout : outsideTransport (tplTimeout s) = outsideTransport s := by
  rw [tplTimeout, outsideTransport_raiseError, outsideTransport_sAbort]

@[simp] theorem outsideTransport_tplDecode (n : Nat) : outsideTransport (tplDecode n s) = outsideTransport s :=
  outsideTransport_complete _ .ok

@[simp] theorem outsideTransport_tplFinish (n : Nat) : outsideTransport (tplFinish n s) = outsideTransport s := by
  unfold tplFinish
  split_ifs <;> simp

end

/-- A looping phase keeps what each turn of its loop keeps. -/
theorem runPhase_keeps {α : Type} {p : Phase} {body : State → State} {g : State → α} (hbody : ∀ s, g (body s) = g s)
    (fuel : Nat) (s : State) : g (runPhase p body fuel s) = g s := by
  induction fuel generalizing s with
  | zero => rfl
  | succ fuel ih =>
    by_cases hp : s.ph = p
    · rw [runPhase_in hp, ih, hbody]
    · rw [runPhase_out hp]

@[simp] theorem outsideTransport_tplPolls (n : Nat) (s : State) :
    outsideTransport (tplPolls n s) = outsideTransport s :=
  runPhase_keeps (fun s => outsideTransport_tplPoll s n) _ s

@[simp] theorem outsideTransport_tplRun (n : Nat) (f : Frame) (s : State) :
    outsideTransport (tplRun n f s) = outsideTransport s := by
  simp only [tplRun]
  split_ifs <;> simp

/-- A transfer that completes keeps the state outside the transport. -/
theorem exec_transfer_outsideTransport {i : Instr} {s t : State} (hi : i = .spix ∨ i = .tplx)
    (h : exec i s = .next t) : outsideTransport t = outsideTransport s := by
  obtain rfl | rfl := hi
  · obtain ⟨f, -, rfl⟩ := exec_spix_next h
    rw [← spiXfer_issueTransfer, outsideTransport_spiXfer, outsideTransport_issueTransfer]
  · obtain ⟨f, n, -, -, rfl⟩ := exec_tplx_next h
    rw [outsideTransport_tplRun, outsideTransport_issueTransfer]

/-! ### TBLD and TINV -/

/-- TBLD and TINV, where they complete, keep the state outside the temperature components. -/
theorem exec_thermal_outsideThermal {i : Instr} {s t : State} (hi : i = .tbld ∨ i = .tinv)
    (h : exec i s = .next t) : outsideThermal t = outsideThermal s := by
  obtain rfl | rfl := hi
  · obtain rfl := exec_tbld_next h
    rfl
  · obtain ⟨r, -, hfit, rfl⟩ := exec_tinv_next h
    obtain ⟨tenths, ok, l, sr, m, p, hrun⟩ := invRun_ends_with_reading (s := issue .invRange s) hfit
    rw [hrun]
    rfl

end Sys2Proof.Machine
end

section
/-! The two views of an operation agree (10_state R22, 70_reset_and_hazards R152): each phase is a step of the sequencer
once its operands are there, and the steps from the issued state on reach what `exec` answers. -/

namespace Sys2Proof.Machine

/-! ### One step of the sequencer -/

section
variable {s : State}

theorem whenInsideRxw_eq {n : Nat} {k : Answer} (h : n ≤ s.cfg.maxFrames) : whenInsideRxw n s k = k := if_pos h

theorem whenInsideTbl_eq {k : Answer} (hlr : s.sl < s.sr) (hr : s.sr < nt s.cfg) : whenInsideTbl s k = k :=
  if_pos ⟨hlr, hr⟩

theorem seqStep_of_spiXfer {f : Frame} (hp : s.ph = .spiXfer) (hf : s.txf = some f) :
    seqStep s = .next (spiXfer f s) := by
  simp only [seqStep, hp, hf, withOperand_some]

theorem seqStep_of_tplArm {n : Word16} (hp : s.ph = .tplArm) (hn : s.nfr = some n)
    (hmax : n.toNat ≤ s.cfg.maxFrames) : seqStep s = .next (tplArm n.toNat s) := by
  simp only [seqStep, hp, hn, withOperand_some, whenInsideRxw_eq hmax]

theorem seqStep_of_tplTx {f : Frame} (hp : s.ph = .tplTx) (hf : s.txf = some f) : seqStep s = .next (tplTx f s) := by
  simp only [seqStep, hp, hf, withOperand_some]

theorem seqStep_of_tplPoll {n : Word16} (hp : s.ph = .tplPoll) (hn : s.nfr = some n)
    (hmax : n.toNat ≤ s.cfg.maxFrames) : seqStep s = .next (tplPoll n.toNat s) := by
  simp only [seqStep, hp, hn, withOperand_some, whenInsideRxw_eq hmax]

theorem seqStep_of_tplTimeout (hp : s.ph = .tplTimeout) : seqStep s = .next (tplTimeout s) := by
  simp only [seqStep, hp]

theorem seqStep_of_tplDecode {n : Word16} (hp : s.ph = .tplDecode) (hn : s.nfr = some n)
    (hmax : n.toNat ≤ s.cfg.maxFrames) : seqStep s = .next (tplDecode n.toNat s) := by
  simp only [seqStep, hp, hn, withOperand_some, whenInsideRxw_eq hmax]

theorem seqStep_of_tblFill (hp : s.ph = .tblFill) (hl : thermalLegal s.cfg = true) :
    seqStep s = .next (tblFill s) := by
  simp only [seqStep, hp, whenThermalLegal_eq hl]

theorem seqStep_of_invRange {r : Word16} (hp : s.ph = .invRange) (hr : s.raw = some r)
    (hfit : tableFit s.cfg s.tbl = true) : seqStep s = .next (invRange r.toNat s) := by
  simp only [seqStep, hp, hr, withOperand_some, whenTableFit_eq hfit]

theorem seqStep_of_invBisect {r : Word16} (hp : s.ph = .invBisect) (hr : s.raw = some r)
    (hfit : tableFit s.cfg s.tbl = true) (hlr : s.sl < s.sr) (hin : s.sr < nt s.cfg) :
    seqStep s = .next (invBisect r.toNat s) := by
  simp only [seqStep, hp, hr, withOperand_some, whenTableFit_eq hfit, whenInsideTbl_eq hlr hin]

theorem seqStep_of_invInterp {r : Word16} (hp : s.ph = .invInterp) (hr : s.raw = some r)
    (hfit : tableFit s.cfg s.tbl = true) (hlr : s.sl < s.sr) (hin : s.sr < nt s.cfg) :
    seqStep s = .next (invInterp r.toNat s) := by
  simp only [seqStep, hp, hr, withOperand_some, whenTableFit_eq hfit, whenInsideTbl_eq hlr hin]

end

/-! ### The phases of TPLX -/

/-- The operands that the phases of TPLX read (43_tpl_engine R84). -/
structure TplOperands (f : Frame) (n : Word16) (s : State) : Prop where
  txf : s.txf = some f
  nfr : s.nfr = some n
  inside : n.toNat ≤ s.cfg.maxFrames

section
variable {f : Frame} {n : Word16} {s u : State}

/-- No transfer writes an operand of TPLX. -/
theorem TplOperands.of_outsideTransport (h : TplOperands f n s) (hu : outsideTransport u = outsideTransport s) :
    TplOperands f n u where
  txf := (congrArg State.txf hu).trans h.txf
  nfr := (congrArg State.nfr hu).trans h.nfr
  inside := (congrArg (fun v => v.cfg.maxFrames) hu).symm ▸ h.inside

/-- The poll loop, turn by turn (43_tpl_engine R92). -/
theorem seqRun_tplPolls (h : TplOperands f n s) :
    ∃ k, k ≤ s.bud + 1 ∧ seqRun k s = .next (tplPolls n.toNat s) := by
  refine (seqRun_runPhase (TplOperands f n) (fun u hu hp => ?_) (s.bud + 1) s h).2
  exact ⟨seqStep_of_tplPoll hp hu.nfr hu.inside, hu.of_outsideTransport (outsideTransport_tplPoll u n.toNat)⟩

theorem seqRun_tplFinish (h : TplOperands f n s) : ∃ k, k ≤ 1 ∧ seqRun k s = .next (tplFinish n.toNat s) := by
  unfold tplFinish
  split_ifs with htimeout hdecode
  · exact ⟨1, le_rfl, seqRun_one (seqStep_of_tplTimeout htimeout)⟩
  · exact ⟨1, le_rfl, seqRun_one (seqStep_of_tplDecode hdecode h.nfr h.inside)⟩
  · exact ⟨0, Nat.zero_le 1, rfl⟩

/-- The poll loop is entered with the whole budget (43_tpl_engine R92). -/
theorem tplTx_bud (f : Frame) (s : State) (h : (tplTx f s).ph = .tplPoll) : (tplTx f s).bud = budget0 s.cfg := by
  rw [tplTx_eq] at h ⊢
  cases hx : s.env.nextXfer with
  | ok r => rfl
  | timeout | fail => simp [hx, tplSent] at h

theorem seqRun_tplRun (hp : s.ph = .tplArm) (h : TplOperands f n s) :
    ∃ k, k ≤ budget0 s.cfg + 4 ∧ seqRun k s = .next (tplRun n.toNat f s) := by
  have harm := seqRun_one (seqStep_of_tplArm hp h.nfr h.inside)
  simp only [tplRun]
  split_ifs with hsend hpoll
  · have h1 : TplOperands f n (tplArm n.toNat s) := h.of_outsideTransport (by simp)
    have h2 : TplOperands f n (tplTx f (tplArm n.toNat s)) := h.of_outsideTransport (by simp)
    have h3 : TplOperands f n (tplPolls n.toNat (tplTx f (tplArm n.toNat s))) := h.of_outsideTransport (by simp)
    obtain ⟨k, hk, hloop⟩ := seqRun_tplPolls h2
    obtain ⟨j, hj, hend⟩ := seqRun_tplFinish h3
    rw [tplTx_bud _ _ hpoll, tplArm_cfg] at hk
    have hsent := seqRun_append harm (seqRun_one (seqStep_of_tplTx hsend h1.txf))
    exact ⟨_, by omega, seqRun_append hsent (seqRun_append hloop hend)⟩
  · have h1 : TplOperands f n (tplArm n.toNat s) := h.of_outsideTransport (by simp)
    exact ⟨_, by omega, seqRun_append harm (seqRun_one (seqStep_of_tplTx hsend h1.txf))⟩
  · exact ⟨1, by omega, harm⟩

end

/-! ### The phases of TINV -/

/-- What the phases of TINV read besides the bracket (45_temp_inverter R108). -/
structure InvOperands (r : Word16) (s : State) : Prop where
  raw : s.raw = some r
  fit : tableFit s.cfg s.tbl = true

/-- In the loop of TINV: its operands, and a bracket inside the table (45_temp_inverter R111). -/
structure Bisecting (r : Word16) (s : State) : Prop extends InvOperands r s where
  nonempty : s.sl < s.sr
  inside : s.sr < nt s.cfg

section
variable {r : Word16} {s : State}

theorem Bisecting.invBisect (h : Bisecting r s) : Bisecting r (invBisect r.toNat s) := by
  have hlr := h.nonempty
  have hin := h.inside
  by_cases hadj : s.sl + 1 = s.sr
  · rw [invBisect_adjacent hadj]
    exact { h with }
  · by_cases hprobe : entryAt s ((s.sl + s.sr) / 2) ≤ r.toNat
    · rw [invBisect_right hadj hprobe]
      exact { h with nonempty := show s.sl < (s.sl + s.sr) / 2 by omega,
                     inside := show (s.sl + s.sr) / 2 < nt s.cfg by omega }
    · rw [invBisect_left hadj hprobe]
      exact { h with nonempty := show (s.sl + s.sr) / 2 < s.sr by omega }

/-- The bisection, turn by turn (45_temp_inverter R111). -/
theorem seqRun_invBisects (h : Bisecting r s) :
    Bisecting r (invBisects r.toNat s) ∧ ∃ k, k ≤ nt s.cfg ∧ seqRun k s = .next (invBisects r.toNat s) :=
  seqRun_runPhase (Bisecting r)
    (fun _ hu hp => ⟨seqStep_of_invBisect hp hu.raw hu.fit hu.nonempty hu.inside, hu.invBisect⟩) (nt s.cfg) s h

/-- Where INV_RANGE enters the loop, the whole table is the bracket (45_temp_inverter R111). -/
theorem invRange_bisecting (h : InvOperands r s) (hp : (invRange r.toNat s).ph = .invBisect) :
    Bisecting r (invRange r.toNat s) := by
  obtain ⟨h2, -, -⟩ := tableFit_iff.1 h.fit
  unfold invRange at hp ⊢
  split_ifs at hp ⊢
  · simp [reading] at hp
  · simp [reading] at hp
  · exact { h with nonempty := show 0 < nt s.cfg - 1 by omega, inside := show nt s.cfg - 1 < nt s.cfg by omega }

theorem seqRun_invRun (hp : s.ph = .invRange) (h : InvOperands r s) :
    ∃ k, k ≤ nt s.cfg + 2 ∧ seqRun k s = .next (invRun r.toNat s) := by
  have hrange := seqRun_one (seqStep_of_invRange hp h.raw h.fit)
  simp only [invRun]
  split_ifs with hloop hend
  · obtain ⟨hb, k, hk, hturns⟩ := seqRun_invBisects (invRange_bisecting h hloop)
    have hinterp := seqRun_one (seqStep_of_invInterp hend hb.raw hb.fit hb.nonempty hb.inside)
    rw [invRange_cfg] at hk
    exact ⟨_, by omega, seqRun_append hrange (seqRun_append hturns hinterp)⟩
  · obtain ⟨-, k, hk, hturns⟩ := seqRun_invBisects (invRange_bisecting h hloop)
    rw [invRange_cfg] at hk
    exact ⟨_, by omega, seqRun_append hrange hturns⟩
  · exact ⟨1, by omega, hrange⟩

end

/-! ### From the issue to the end -/

section
variable {s : State}

theorem issueOnly_spix {f : Frame} (hb : busyOf s.status = false) (hp : s.ph = .idle) (hm : s.cfg.mode = .spi)
    (hf : s.txf = some f) : issueOnly .spix s = .next (issueTransfer .spiXfer s) :=
  startSpix_eq (k := fun _ s' => .next s') hb hp hm hf

theorem issueOnly_tplx {f : Frame} {n : Word16} (hb : busyOf s.status = false) (hp : s.ph = .idle)
    (hm : s.cfg.mode ≠ .spi) (hf : s.txf = some f) (hn : s.nfr = some n) (h1 : 1 ≤ n.toNat)
    (h2 : n.toNat ≤ s.cfg.maxFrames) : issueOnly .tplx s = .next (issueTransfer .tplArm s) :=
  startTplx_eq (k := fun _ _ s' => .next s') hb hp hm hf hn h1 h2

theorem issueOnly_tbld (hb : busyOf s.status = false) (hp : s.ph = .idle) (hv : tblValidOf s.status = false)
    (hl : thermalLegal s.cfg = true) : issueOnly .tbld s = .next (issue .tblFill s) :=
  startTbld_eq hb hp hv hl

theorem issueOnly_tinv {r : Word16} (hb : busyOf s.status = false) (hp : s.ph = .idle)
    (hv : tblValidOf s.status = true) (hr : s.raw = some r) (hfit : tableFit s.cfg s.tbl = true) :
    issueOnly .tinv s = .next (issue .invRange s) :=
  startTinv_eq (k := fun _ s' => .next s') hb hp hv hr hfit

end

/-- Settles O56: the phases that `exec` composes are the steps of the sequencer from the issued state on; the poll loop
takes at most BUDGET0 + 1 of them and the bisection at most NT. -/
theorem phasesReachWholeOperation : Obligations.PhasesReachWholeOperation := by
  intro i s t h
  cases i with
  | enc | dec => exact ⟨t, h, 0, Nat.zero_le _, rfl⟩
  | spix =>
    rw [exec, execSpix] at h
    obtain ⟨hb, hp, hm, f, hf, hrun⟩ := startSpix_next h
    refine ⟨_, issueOnly_spix hb hp hm hf, 1, by omega, ?_⟩
    exact hrun ▸ seqRun_one (seqStep_of_spiXfer (s := issueTransfer .spiXfer s) rfl hf)
  | tplx =>
    rw [exec, execTplx] at h
    obtain ⟨hb, hp, hm, f, n, hf, hn, h1, h2, hrun⟩ := startTplx_next h
    obtain ⟨k, hk, hphases⟩ := seqRun_tplRun (s := issueTransfer .tplArm s) rfl ⟨hf, hn, h2⟩
    rw [issueTransfer_cfg] at hk
    exact ⟨_, issueOnly_tplx hb hp hm hf hn h1 h2, k, by omega, hphases.trans hrun⟩
  | tbld =>
    rw [exec, execTbld] at h
    obtain ⟨hb, hp, hv, hl, hrun⟩ := startTbld_next h
    refine ⟨_, issueOnly_tbld hb hp hv hl, 1, by omega, ?_⟩
    exact hrun ▸ seqRun_one (seqStep_of_tblFill (s := issue .tblFill s) rfl hl)
  | tinv =>
    rw [exec, execTinv] at h
    obtain ⟨hb, hp, hv, r, hr, hfit, hrun⟩ := startTinv_next h
    obtain ⟨k, hk, hphases⟩ := seqRun_invRun (s := issue .invRange s) rfl ⟨hr, hfit⟩
    rw [issue_cfg] at hk
    exact ⟨_, issueOnly_tinv hb hp hv hr hfit, k, by omega, hphases.trans hrun⟩

end Sys2Proof.Machine
end

section
/-! No hidden memory (10_state R10): an operation answers the same from two states that differ only in BUD, SL, SR, SM,
TXW and RXW. -/

namespace Sys2Proof.Machine

/-- `s` with the scratch items of `u`. -/
def withScratch (s u : State) : State :=
  { s with bud := u.bud, sl := u.sl, sr := u.sr, sm := u.sm, txw := u.txw, rxw := u.rxw }

theorem eq_withScratch {s s' : State} (h : hideScratch s = hideScratch s') : s' = withScratch s s' := by
  show withScratch (hideScratch s') s' = withScratch (hideScratch s) s'
  rw [h]

/-- The same refusal, or next states that differ only in the scratch items. -/
def SameAnswer (a a' : Answer) : Prop :=
  (∀ r, a = .refused r → a' = .refused r) ∧ ∀ t, a = .next t → ∃ t', a' = .next t' ∧ hideScratch t = hideScratch t'

/-! ### Checks -/

theorem SameAnswer.of_next {t t' : State} (h : hideScratch t = hideScratch t') : SameAnswer (.next t) (.next t') :=
  ⟨fun _ he => (nomatch he), fun _ hu => ⟨t', rfl, Host.Outcome.next.inj hu ▸ h⟩⟩

theorem SameAnswer.of_refused (r : Refusal) : SameAnswer (.refused r) (.refused r) :=
  ⟨fun _ he => he, fun _ ht => nomatch ht⟩

theorem SameAnswer.check {c : Prop} [Decidable c] {r : Refusal} {k k' : Answer} (h : SameAnswer k k') :
    SameAnswer (if c then k else .refused r) (if c then k' else .refused r) := by
  split
  · exact h
  · exact of_refused r

theorem SameAnswer.operand {α : Type} {n : Nat} {v : Option α} {k k' : α → Answer} (h : ∀ x, SameAnswer (k x) (k' x)) :
    SameAnswer (withOperand n v k) (withOperand n v k') := by
  cases v with
  | none => exact of_refused (.noOperand n)
  | some x => exact h x

/-! ### Transfers -/

/-- RXF[0] is decoded from the block just written to RXW, whatever RXW held before (42_spi_engine R77). -/
theorem hideScratch_spiXfer (f : Frame) (s u : State) :
    hideScratch (spiXfer f (issueTransfer .spiXfer s))
      = hideScratch (spiXfer f (issueTransfer .spiXfer (withScratch s u))) := by
  have henv : (withScratch s u).env = s.env := rfl
  rw [spiXfer_issueTransfer, spiXfer_issueTransfer, henv]
  cases s.env.nextXfer with
  | ok r => simp only [spiAnswered, Memory.readBlock_writeBlock]; rfl
  | timeout | fail => rfl

/-- Each way TPLX ends writes RXW and BUD before it reads them (43_tpl_engine R84 to R94). -/
theorem hideScratch_tplRun (n : Nat) (f : Frame) (s u : State) :
    hideScratch (tplRun n f s) = hideScratch (tplRun n f (withScratch s u)) := by
  cases ha : s.env.armAt 0 with
  | armFail =>
    rw [tplRun_armFail ha, tplRun_armFail (s := withScratch s u) ha]
    rfl
  | armOk =>
    cases hx : s.env.afterArm.nextXfer with
    | timeout =>
      rw [tplRun_xferTimeout ha hx, tplRun_xferTimeout (s := withScratch s u) ha hx]
      rfl
    | fail =>
      rw [tplRun_xferFail ha hx, tplRun_xferFail (s := withScratch s u) ha hx]
      rfl
    | ok r =>
      obtain hb | ⟨j, hj, hb, hi⟩ := polls_cases (polling n f s).env (budget0 s.cfg)
      · rw [tplRun_pollTimeout ha hx hb, tplRun_pollTimeout (s := withScratch s u) ha hx hb]
        rfl
      · rw [tplRun_pollIdle ha hx hj hb hi, tplRun_pollIdle (s := withScratch s u) ha hx hj hb hi]
        rfl

/-! ### TINV -/

/-- On a fit table at most one index begins a bracket that is strict on the left (45_temp_inverter R112). -/
theorem bracket_unique {s : State} {raw l l' : Nat} (ht : tableFit s.cfg s.tbl = true) (hl : l + 1 < nt s.cfg)
    (hl' : l' + 1 < nt s.cfg) (hright : entryAt s (l + 1) ≤ raw) (hright' : entryAt s (l' + 1) ≤ raw)
    (hstrict : 0 < l → raw < entryAt s l) (hstrict' : 0 < l' → raw < entryAt s l') : l = l' := by
  rcases Nat.lt_trichotomy l l' with hlt | heq | hgt
  · have hfall : entryAt s l' ≤ entryAt s (l + 1) := entryAt_antitone ht hlt (by omega)
    have := hstrict' (by omega)
    omega
  · exact heq
  · have hfall : entryAt s l ≤ entryAt s (l' + 1) := entryAt_antitone ht hgt (by omega)
    have := hstrict (by omega)
    omega

/-- The bracket in which TINV reads depends on the table and RAW alone (45_temp_inverter R111 to R113). -/
theorem hideScratch_invRun {raw : Nat} {s : State} (u : State) (ht : tableFit s.cfg s.tbl = true) :
    hideScratch (invRun raw s) = hideScratch (invRun raw (withScratch s u)) := by
  by_cases hlow : raw < entryAt s (nt s.cfg - 1)
  · rw [invRun_below hlow, invRun_below (s := withScratch s u) hlow]
    rfl
  by_cases hhigh : entryAt s 0 < raw
  · rw [invRun_above ht hhigh, invRun_above (s := withScratch s u) ht hhigh]
    rfl
  obtain ⟨l, m, hl, hright, -, hstrict, hrun⟩ := invRun_inside ht (not_lt.1 hlow) (not_lt.1 hhigh)
  obtain ⟨l', m', hl', hright', -, hstrict', hrun'⟩ :=
    invRun_inside (s := withScratch s u) ht (not_lt.1 hlow) (not_lt.1 hhigh)
  obtain rfl := bracket_unique ht hl hl' hright hright' hstrict hstrict'
  rw [hrun, hrun']
  rfl

/-! ### Every operation -/

theorem exec_withScratch (i : Instr) (s u : State) : SameAnswer (exec i s) (exec i (withScratch s u)) := by
  cases i with
  | enc => exact .check (.operand fun f => .of_next rfl)
  | dec => exact .check (.operand fun w => .of_next rfl)
  | spix => exact .check (.check (.operand fun f => .of_next (hideScratch_spiXfer f s u)))
  | tplx =>
    exact .check (.check (.operand fun f => .operand fun n => .check
      (.of_next (hideScratch_tplRun n.toNat f (issueTransfer .tplArm s) u))))
  | tbld => exact .check (.check (.check (.of_next rfl)))
  | tinv =>
    refine .check (.check (.operand fun r => ?_))
    by_cases ht : tableFit s.cfg s.tbl = true
    · exact .check (.of_next (hideScratch_invRun (s := issue .invRange s) u ht))
    · have hrefused : ∀ k, whenTableFit s k = .refused .tableUnfit := fun k => if_neg ht
      have hrefused' : ∀ k, whenTableFit (withScratch s u) k = .refused .tableUnfit := fun k => if_neg ht
      rw [hrefused, hrefused']
      exact .of_refused .tableUnfit

/-- Settles O60: the second state is the first with other scratch items, no check reads one of them, and every
operation writes those it reads. -/
theorem noHiddenMemory : Obligations.NoHiddenMemory := by
  intro i s s' h
  rw [eq_withScratch h]
  exact exec_withScratch i s s'

end Sys2Proof.Machine
end

section
/-! The beta model over exact reals (44_temp_table R100 to R107): rounding, the order and the range of the entries, that
a legal configuration passes the checks of TBLD, and the table that TBLD leaves. -/

namespace Sys2Proof.Machine

/-! ### Rounding (R7, R102) -/

theorem roundHalfAway_of_nonneg {x : ℝ} (h : 0 ≤ x) : roundHalfAway x = ⌊x + 1 / 2⌋ := if_pos h

theorem roundHalfAway_neg {x : ℝ} (h : 0 < x) : roundHalfAway (-x) = -roundHalfAway x := by
  rw [roundHalfAway_of_nonneg h.le, roundHalfAway, if_neg (by linarith), neg_neg]

theorem roundHalfAway_intCast {k : Int} (h : 0 ≤ k) : roundHalfAway (k : ℝ) = k := by
  have hhalf : ⌊(1 / 2 : ℝ)⌋ = 0 := by norm_num
  rw [roundHalfAway_of_nonneg (by exact_mod_cast h), Int.floor_intCast_add, hhalf, add_zero]

theorem abs_roundHalfAway_sub_le_of_nonneg {x : ℝ} (h : 0 ≤ x) : |(roundHalfAway x : ℝ) - x| ≤ 1 / 2 := by
  have hle := Int.floor_le (x + 1 / 2)
  have hlt := Int.lt_floor_add_one (x + 1 / 2)
  rw [roundHalfAway_of_nonneg h, abs_le]
  constructor <;> linarith

theorem roundHalfAway_add_half {k : Int} (h : 0 ≤ k) : roundHalfAway ((k : ℝ) + 1 / 2) = k + 1 := by
  have hk : (0 : ℝ) ≤ k := by exact_mod_cast h
  have hsum : (k : ℝ) + 1 / 2 + 1 / 2 = ((k + 1 : Int) : ℝ) := by push_cast; ring
  rw [roundHalfAway_of_nonneg (by linarith), hsum, Int.floor_intCast]

/-- Settles O38: for numbers that are not negative by the bounds of the floor, for negative ones by symmetry. -/
theorem roundingToNearest : Obligations.RoundingToNearest := by
  refine ⟨fun x => ?_, fun k hk => roundHalfAway_add_half hk, fun k hk => ?_, fun q => (roundHalfAway_cast q).symm⟩
  · rcases le_or_gt 0 x with hx | hx
    · exact abs_roundHalfAway_sub_le_of_nonneg hx
    · have habs := abs_roundHalfAway_sub_le_of_nonneg (x := -x) (by linarith)
      have hsymm := roundHalfAway_neg (x := -x) (by linarith)
      rw [neg_neg] at hsymm
      rw [hsymm, ← abs_neg]
      push_cast
      rwa [neg_sub, sub_neg_eq_add, add_comm, ← sub_neg_eq_add]
  · have hk' : (0 : ℝ) ≤ k := by exact_mod_cast hk
    rw [roundHalfAway_neg (by linarith), roundHalfAway_add_half hk]

/-! ### Order and range of the entries (R105, R107) -/

/-- The divider fraction of a resistance rises with it (R101). -/
theorem div_add_self_le {a b p : ℝ} (ha : 0 < a) (hp : 0 < p) (h : a ≤ b) : a / (a + p) ≤ b / (b + p) := by
  rw [div_le_div_iff₀ (by linarith) (by linarith)]
  nlinarith

section
variable {rRef rPu scale e : ℝ}

theorem betaEntry_mono {e' : ℝ} (hr : 0 < rRef) (hp : 0 < rPu) (hs : 0 < scale) (he : 0 < e) (h : e ≤ e') :
    betaEntry rRef rPu scale e ≤ betaEntry rRef rPu scale e' := by
  have hre : 0 < rRef * e := mul_pos hr he
  have hfrac := div_add_self_le hre hp (mul_le_mul_of_nonneg_left h hr.le)
  exact roundHalfAway_mono (by positivity) (mul_le_mul_of_nonneg_right hfrac hs.le)

theorem betaEntry_nonneg (hr : 0 < rRef) (hp : 0 < rPu) (hs : 0 < scale) (he : 0 < e) :
    0 ≤ betaEntry rRef rPu scale e := by
  rw [betaEntry, roundHalfAway_of_nonneg (by positivity)]
  positivity

theorem betaEntry_le_scale (hr : 0 < rRef) (hp : 0 < rPu) (hs : 0 < scale) (he : 0 < e) :
    betaEntry rRef rPu scale e ≤ roundHalfAway scale := by
  have hre : 0 < rRef * e := mul_pos hr he
  have hfrac : rRef * e / (rRef * e + rPu) ≤ 1 := div_le_one_of_le₀ (by linarith) (by positivity)
  exact roundHalfAway_mono (by positivity) (mul_le_of_le_one_left hs.le hfrac)

end

/-- Settles O35: the exponential's values fall with the index, and the entry rises with the exponential's value. -/
theorem tableNeverRises : Obligations.TableNeverRises := fun _ _ h hi =>
  betaEntry_mono h.rRef h.rPu h.scale (h.exp_pos hi) (h.exp_falls hi).le

section
variable {c : Cfg} {i : Nat}

theorem ThermalConstraints.roundHalfAway_scale_le (h : ThermalConstraints c) :
    roundHalfAway c.codeScale.value ≤ 65535 := by
  have hmax : roundHalfAway ((65535 : Int) : ℝ) = 65535 := roundHalfAway_intCast (by decide)
  exact (roundHalfAway_mono h.scale.le (by exact_mod_cast h.scaleMax)).trans hmax.le

theorem ThermalConstraints.exactEntry_nonneg (h : ThermalConstraints c) (hi : i < nt c) : 0 ≤ exactEntry c i :=
  betaEntry_nonneg h.rRef h.rPu h.scale (h.exp_pos hi)

theorem ThermalConstraints.exactEntry_le_scale (h : ThermalConstraints c) (hi : i < nt c) :
    exactEntry c i ≤ roundHalfAway c.codeScale.value :=
  betaEntry_le_scale h.rRef h.rPu h.scale (h.exp_pos hi)

/-- The 16-bit code that TBLD writes is the entry itself (R107). -/
theorem entryCode_toNat (h : ThermalConstraints c) (ht : TableExact c) (hi : i < nt c) :
    ((entryCode c i).toNat : Int) = exactEntry c i := by
  have hlow := h.exactEntry_nonneg hi
  have hhigh := (h.exactEntry_le_scale hi).trans h.roundHalfAway_scale_le
  rw [entryCode_exact h ht hi, BitVec.toNat_ofInt, Int.emod_eq_of_lt hlow (by norm_num; omega),
    Int.toNat_of_nonneg hlow]

end

/-- Settles O36: the divider fraction lies between 0 and 1, so that the entry lies between 0 and the rounded scale. -/
theorem entriesFitTheirWidth : Obligations.EntriesFitTheirWidth := fun _ _ h hi =>
  ⟨h.exactEntry_nonneg hi, h.exactEntry_le_scale hi, h.roundHalfAway_scale_le, fun ht => entryCode_toNat h ht hi⟩

/-- Settles O37: at T_REF the argument of the exponential is 0 and its value is 1. -/
theorem entryAtReferenceTemperature : Obligations.EntryAtReferenceTemperature := by
  intro c i h hi href
  have harg : expArg c i = 0 := by simp [expArg, betaArg, href]
  rw [exactEntry, betaEntry, h.exp_zero hi harg]
  congr 1
  ring

/-! ### A legal configuration passes the checks of TBLD (93 U9) -/

theorem RealConst.check_of_value {x : RealConst} {p : Rat → Bool} (h : ∀ q : Rat, x.value = q → p q = true) :
    x.check p = true := by
  cases x with
  | rat q => exact h q rfl
  | free k => rfl

theorem CfgLegal.entryCode_falls {c : Cfg} (h : CfgLegal c) {i : Nat} (hi : i + 1 < nt c) :
    (entryCode c (i + 1)).toNat ≤ (entryCode c i).toNat := by
  have hfall := tableNeverRises c i h.thermal hi
  rw [← entryCode_toNat h.thermal h.table hi, ← entryCode_toNat h.thermal h.table (by omega)] at hfall
  exact_mod_cast hfall

theorem CfgLegal.numericsLegal {c : Cfg} (h : CfgLegal c) : numericsLegal c = true := by
  have hexp := h.thermal.exp
  have htable := h.table
  unfold ExpConstraints at hexp
  unfold TableExact at htable
  unfold Machine.numericsLegal
  split at hexp
  · exact hexp
  next f entries hc =>
    simp only [hc] at htable
    have hlen : entries.length = nt c := by simp [htable]
    have hentry : ∀ i, (hi : i < entries.length) → entries[i] = entryCode c i := fun i hi => by
      simp [entryCode, hc, hi]
    rw [hlen, beq_self_eq_true, Bool.true_and]
    refine neverRising_of_step fun i hi => ?_
    rw [List.length_map] at hi
    rw [List.getElem_map, List.getElem_map, hentry _ hi, hentry i (by omega)]
    exact h.entryCode_falls (hlen ▸ hi)

theorem CfgLegal.thermalLegal {c : Cfg} (h : CfgLegal c) : thermalLegal c = true := by
  have ht := h.thermal
  simp only [Machine.thermalLegal, Bool.and_eq_true, decide_eq_true_eq]
  refine ⟨⟨⟨⟨⟨⟨⟨⟨ht.order, ht.low⟩, ht.high⟩, ?_⟩, ?_⟩, ?_⟩, ?_⟩, ?_⟩, h.numericsLegal⟩
  · exact RealConst.check_of_value fun q hq => by simpa [hq] using ht.beta
  · exact RealConst.check_of_value fun q hq => by simpa [hq] using ht.rRef
  · refine RealConst.check_of_value fun q hq => ?_
    have hpos : (0 : ℝ) < ((q + kelvin0 : Rat) : ℝ) := by
      simpa [hq, kelvin0] using ht.tRef
    exact decide_eq_true (Rat.cast_pos.1 hpos)
  · exact RealConst.check_of_value fun q hq => by simpa [hq] using ht.rPu
  · refine RealConst.check_of_value fun q hq => ?_
    have hpos := ht.scale
    have hmax := ht.scaleMax
    rw [hq] at hpos hmax
    rw [Bool.and_eq_true, decide_eq_true_eq, decide_eq_true_eq]
    exact ⟨by exact_mod_cast hpos, by exact_mod_cast hmax⟩

/-! ### The table that TBLD leaves -/

theorem ThermalConstraints.two_le_nt {c : Cfg} (h : ThermalConstraints c) : 2 ≤ nt c := by
  have := h.order
  unfold nt
  omega

/-- In a legal configuration the filled table is complete and never rises, as the inverter needs it (R104, R105,
45_temp_inverter R108). -/
theorem CfgLegal.tableFit_fillTable {c : Cfg} (h : CfgLegal c) : tableFit c (fillTable c (nt c) 0 []) = true := by
  have hheld : heldBelow (fillTable c (nt c) 0 []) (nt c) := by
    have hfill := heldBelow_fillTable c (nt c) 0 [] heldBelow_nil
    rwa [Nat.zero_add] at hfill
  have hentry : ∀ i, (hi : i < (fillTable c (nt c) 0 []).length) → (fillTable c (nt c) 0 [])[i].2 = entryCode c i := by
    intro i hi
    have hread := hheld.read_eq i
    rw [read_fillTable, if_pos ⟨Nat.zero_le i, by rw [hheld.length] at hi; omega⟩, List.getElem?_eq_getElem hi] at hread
    exact (Option.some.inj hread).symm
  refine tableFit_iff.2 ⟨h.thermal.two_le_nt, hheld, neverRising_of_step fun i hi => ?_⟩
  rw [List.length_map] at hi
  rw [List.getElem_map, List.getElem_map, hentry _ hi, hentry i (by omega)]
  exact h.entryCode_falls (hheld.length ▸ hi)

theorem completedStatus_putTblValid_issuedStatus :
    ∀ w : Byte, completedStatus .ok (putTblValid true (issuedStatus w)) = (w &&& 0xD0#8) ||| 0x22#8 := by decide

theorem tblFill_issued {s : State} (hp : s.ph = .idle) :
    tblFill (issue .tblFill s) =
      { s with tbl := fillTable s.cfg (nt s.cfg) 0 s.tbl, status := (s.status &&& 0xD0#8) ||| 0x22#8 } := by
  rw [tblFill, complete, ← completedStatus_putTblValid_issuedStatus, ← hp]
  rfl

/-- Settles O34: TBLD passes its checks, and each cell below NT reads back the code of the exact entry, that of the
value of `numerics.exp` at its argument. -/
theorem tbldFillsTable : Obligations.TbldFillsTable := by
  intro s hs hv hl
  refine ⟨fillTable s.cfg (nt s.cfg) 0 s.tbl, ?_, fun i hi => ?_, fun i hi => ?_⟩
  · rw [exec, execTbld, startTbld_eq hs.1 hs.2 hv hl.thermalLegal, tblFill_issued hs.2]
  · rw [read_fillTable, if_neg (by omega)]
  · refine ⟨expAt s.cfg i, hl.thermal.expValue hi, ?_⟩
    rw [read_fillTable, if_pos ⟨Nat.zero_le i, by omega⟩, entryCode_exact hl.thermal hl.table hi]
    rfl

end Sys2Proof.Machine
end

section
/-! The inverter's search and its reading (45_temp_inverter R111 to R117): each turn of the bisection, how many there
are, the fraction of a bracket, the bounds of a reading, and the reading of a table entry. -/

namespace Sys2Proof.Machine

/-! ### The bisection (R111, R112) -/

/-- Settles O46: adjacent ends only advance the phase; else the middle index lies strictly between the ends and the
probe decides which end it becomes. -/
theorem bisectionKeepsBracket : Obligations.BisectionKeepsBracket := by
  intro s r hp hr hfit hlr hin hleft hright hstrict
  refine ⟨_, seqStep_of_invBisect hp hr hfit hlr hin, ?_⟩
  by_cases hadj : s.sl + 1 = s.sr
  · rw [invBisect_adjacent hadj]
    exact ⟨hleft, hright, hlr, hstrict, fun _ => rfl, fun hne => absurd hadj hne⟩
  have hmid : s.sl < (s.sl + s.sr) / 2 ∧ (s.sl + s.sr) / 2 < s.sr := by omega
  by_cases hprobe : entryAt s ((s.sl + s.sr) / 2) ≤ r.toNat
  · rw [invBisect_right hadj hprobe]
    refine ⟨hleft, hprobe, hmid.1, hstrict, fun h => absurd h hadj, fun _ => ⟨hp, hmid.1, hmid.2, ?_⟩⟩
    dsimp only
    omega
  · rw [invBisect_left hadj hprobe]
    have hbelow := not_le.1 hprobe
    refine ⟨hbelow.le, hright, hmid.2, fun _ => hbelow, fun h => absurd h hadj, fun _ => ⟨hp, hmid.1, hmid.2, ?_⟩⟩
    dsimp only
    omega

/-- A bracket of width at most `2 ^ k` is searched in `k` probes and the turn that sees the ends adjacent. -/
theorem runPhase_bisect_ph {raw : Nat} {s : State} (k : Nat) (hp : s.ph = .invBisect) (hlr : s.sl < s.sr)
    (hwidth : s.sr - s.sl ≤ 2 ^ k) : (runPhase .invBisect (invBisect raw) (k + 1) s).ph = .invInterp := by
  induction k generalizing s with
  | zero =>
    have hadj : s.sl + 1 = s.sr := by
      rw [pow_zero] at hwidth
      omega
    rw [runPhase_in hp, invBisect_adjacent hadj]
    rfl
  | succ k ih =>
    rw [pow_succ] at hwidth
    rw [runPhase_in hp]
    by_cases hadj : s.sl + 1 = s.sr
    · rw [invBisect_adjacent hadj, runPhase_out (by simp)]
    · by_cases hprobe : entryAt s ((s.sl + s.sr) / 2) ≤ raw
      · rw [invBisect_right hadj hprobe]
        exact ih hp (show s.sl < (s.sl + s.sr) / 2 by omega) (show (s.sl + s.sr) / 2 - s.sl ≤ 2 ^ k by omega)
      · rw [invBisect_left hadj hprobe]
        exact ih hp (show (s.sl + s.sr) / 2 < s.sr by omega) (show s.sr - (s.sl + s.sr) / 2 ≤ 2 ^ k by omega)

/-- Settles O47: every probe halves the bracket, and the whole table is one of width NT - 1. -/
theorem bisectionIsLogarithmic : Obligations.BisectionIsLogarithmic := by
  intro s raw hp hl hr h2
  refine runPhase_bisect_ph _ hp (by omega) ?_
  rw [hl, hr]
  exact Nat.le_pow_clog one_lt_two _

/-! ### The fraction (R113, R114) -/

theorem tdiv_ten_pos {w : Int} (h : 10 ≤ w) : 0 < w.tdiv 10 := by
  rw [Int.tdiv_eq_ediv_of_nonneg (by omega)]
  omega

/-- Settles O43: the inner quotient is 0 exactly for the narrow brackets. -/
theorem narrowBracketFractionZero : Obligations.NarrowBracketFractionZero := by
  refine ⟨fun left right raw hle hlt => ?_, fun left right raw hwide => ?_⟩
  · exact if_pos (Int.tdiv_eq_zero_of_lt (by omega) hlt)
  · exact if_neg (tdiv_ten_pos hwide).ne'

/-- In a bracket of table entries around RAW the fraction is a quotient of natural numbers; division by 0 gives 0. -/
theorem fraction_natCast {left right raw : Nat} (hright : right ≤ raw) (hleft : raw ≤ left) :
    fraction left right raw = ((left - raw) / ((left - right) / 10) : Nat) := by
  have hd : ((left : Int) - right).tdiv 10 = ((left - right) / 10 : Nat) := by
    rw [← Int.ofNat_sub (by omega)]
    rfl
  rw [fraction, hd]
  split_ifs with hzero
  · rw [Int.natCast_eq_zero.1 hzero, Nat.div_zero]
    rfl
  · rw [← Int.ofNat_sub hleft]
    rfl

theorem div_div_ten_bounds {w : Nat} (h : 10 ≤ w) : 10 ≤ w / (w / 10) ∧ w / (w / 10) ≤ 19 := by
  have hd : 0 < w / 10 := by omega
  refine ⟨(Nat.le_div_iff_mul_le hd).2 (by omega), Nat.le_of_lt_succ ((Nat.div_lt_iff_lt_mul hd).2 (by omega))⟩

theorem div_div_ten_le {v w : Nat} (h : v ≤ w) : v / (w / 10) ≤ 19 := by
  by_cases hw : 10 ≤ w
  · exact (Nat.div_le_div_right h).trans (div_div_ten_bounds hw).2
  · rw [Nat.div_eq_of_lt (not_le.1 hw), Nat.div_zero]
    exact Nat.zero_le _

/-! ### The bounds of a reading (R116) -/

theorem nt_spec {c : Cfg} (h : 2 ≤ nt c) : c.tMin + (nt c : Int) = c.tMax + 1 := by
  unfold nt at h ⊢
  omega

/-- Every reading is some number of tenths of a degree within the bounds, written as 16 bits. -/
theorem invRun_temp {raw : Nat} {s : State} (ht : tableFit s.cfg s.tbl = true) :
    ∃ x : Int, (invRun raw s).temp = some (BitVec.ofInt 16 x) ∧ 10 * s.cfg.tMin ≤ x ∧ x ≤ 10 * s.cfg.tMax + 9 := by
  obtain ⟨h2, -, -⟩ := tableFit_iff.1 ht
  have hnt := nt_spec h2
  obtain (⟨-, hrun⟩ | ⟨-, -, hrun⟩) | ⟨l, m, hl, hleft, hright, -, hrun⟩ := invRun_cases (raw := raw) ht
  · exact ⟨10 * s.cfg.tMax, by rw [hrun]; rfl, by omega, by omega⟩
  · exact ⟨10 * s.cfg.tMin, by rw [hrun]; rfl, by omega, by omega⟩
  · obtain ⟨q, hfrac, hq⟩ : ∃ q : Nat, fraction (entryAt s l) (entryAt s (l + 1)) raw = q ∧ q ≤ 19 :=
      ⟨_, fraction_natCast hright hleft, div_div_ten_le (Nat.sub_le_sub_left hright _)⟩
    refine ⟨10 * tempAt s.cfg l + q, by rw [hrun, ← hfrac]; rfl, ?_⟩
    rw [tempAt]
    omega

/-- Settles O44: the bounds keep every reading inside 16 bits, so that TEMP read as a signed number is the reading. -/
theorem readingWithinBounds : Obligations.ReadingWithinBounds := by
  intro s t hmin hmax h
  obtain ⟨r, -, hfit, rfl⟩ := exec_tinv_next h
  obtain ⟨x, htemp, hlow, hhigh⟩ := invRun_temp (raw := r.toNat) (s := issue .invRange s) hfit
  rw [issue_cfg] at hlow hhigh
  have hx : (BitVec.ofInt 16 x).toInt = x := BitVec.toInt_ofInt_eq_self (by decide) (by omega) (by omega)
  exact ⟨_, htemp, by rwa [hx], by rwa [hx]⟩

/-! ### Inverting a table entry (R117) -/

/-- Inside the table TINV completes in range, with the reading of the bracket that begins at `l` (R113, R115). -/
theorem exec_tinv_inside {s : State} {r : Word16} {l : Nat} (hs : ready s) (hv : tblValidOf s.status = true)
    (hr : s.raw = some r) (ht : tableFit s.cfg s.tbl = true) (hl : l + 1 < nt s.cfg) (hleft : r.toNat ≤ entryAt s l)
    (hright : entryAt s (l + 1) ≤ r.toNat) (hstrict : 0 < l → r.toNat < entryAt s l) :
    ∃ t, exec .tinv s = .next t ∧ inRangeOf t.status = true ∧
      t.temp = some (BitVec.ofInt 16 (10 * tempAt s.cfg l +
        ((entryAt s l - r.toNat) / ((entryAt s l - entryAt s (l + 1)) / 10) : Nat))) := by
  have hlast : entryAt s (nt s.cfg - 1) ≤ entryAt s (l + 1) := entryAt_antitone ht (by omega) (by omega)
  have hfirst : entryAt s l ≤ entryAt s 0 := entryAt_antitone ht (Nat.zero_le l) (by omega)
  obtain ⟨l', m, hl', hright', -, hstrict', hrun⟩ :=
    invRun_inside (s := issue .invRange s) ht (hlast.trans hright) (hleft.trans hfirst)
  obtain rfl := bracket_unique ht hl hl' hright hright' hstrict hstrict'
  refine ⟨_, exec_tinv_of_run hs hv hr ht hrun, ?_, ?_⟩
  · exact (inRangeOf_completed .ok _).trans (inRangeOf_putInRange true _)
  · rw [← fraction_natCast hright hleft]
    rfl

/-- Settles O45: entry 0 begins its bracket and entry `i` above 0 ends the one from `i - 1`, whose whole width is then
above RAW. -/
theorem tableEntryRoundTrip : Obligations.TableEntryRoundTrip := by
  intro s r i hs hv hr ht hfall hi hraw
  obtain ⟨h2, -, -⟩ := tableFit_iff.1 ht
  cases i with
  | zero =>
    obtain ⟨t, hexec, hrange, htemp⟩ := exec_tinv_inside (l := 0) hs hv hr ht (by omega) hraw.le
      (hraw ▸ (hfall 0 (by omega)).le) (fun h => absurd h (Nat.lt_irrefl 0))
    refine ⟨t, hexec, hrange, fun _ => ?_, fun w h => absurd h (Nat.lt_irrefl 0), fun w h => absurd h (Nat.lt_irrefl 0)⟩
    rw [htemp, hraw, Nat.sub_self, Nat.zero_div]
    simp [tempAt]
  | succ k =>
    have hstep : r.toNat < entryAt s k := hraw ▸ hfall k hi
    obtain ⟨t, hexec, hrange, htemp⟩ := exec_tinv_inside (l := k) hs hv hr ht hi hstep.le hraw.ge (fun _ => hstep)
    have hindex : s.cfg.tMin + ((k + 1 : Nat) : Int) - 1 = tempAt s.cfg k := by
      rw [tempAt]
      omega
    rw [hraw] at htemp
    simp only [hindex, Nat.add_sub_cancel]
    refine ⟨t, hexec, hrange, fun h => absurd h (Nat.succ_ne_zero k), fun w _ hw hnarrow => ?_, fun w _ hw hwide => ?_⟩
    · rw [htemp, ← hw, Nat.div_eq_of_lt hnarrow, Nat.div_zero]
      simp
    · exact ⟨by rw [htemp, ← hw], div_div_ten_bounds hwide⟩

end Sys2Proof.Machine
end

section
/-! What a step can do, said once (10_state R22, R31): the phase that the sequencer runs, the parts that a step is made
of, and from them that the trace only grows. -/

namespace Sys2Proof.Machine

/-! ### The phase that the sequencer runs -/

/-- One step of the sequencer from `s`: its phase, and the operand that the phase reads (10_state R22). -/
inductive PhaseStep (s : State) : State → Prop
  | idle (hp : s.ph = .idle) : PhaseStep s s
  | spiXfer (f : Frame) (hp : s.ph = .spiXfer) : PhaseStep s (spiXfer f s)
  | tplArm (n : Word16) (hp : s.ph = .tplArm) : PhaseStep s (tplArm n.toNat s)
  | tplTx (f : Frame) (hp : s.ph = .tplTx) : PhaseStep s (tplTx f s)
  | tplPoll (n : Word16) (hp : s.ph = .tplPoll) (hn : s.nfr = some n) : PhaseStep s (tplPoll n.toNat s)
  | tplTimeout (hp : s.ph = .tplTimeout) : PhaseStep s (tplTimeout s)
  | tplDecode (n : Word16) (hp : s.ph = .tplDecode) (hn : s.nfr = some n) : PhaseStep s (tplDecode n.toNat s)
  | tblFill (hp : s.ph = .tblFill) : PhaseStep s (tblFill s)
  | invRange (r : Word16) (hp : s.ph = .invRange) (hr : s.raw = some r) : PhaseStep s (invRange r.toNat s)
  | invBisect (r : Word16) (hp : s.ph = .invBisect) (hr : s.raw = some r) : PhaseStep s (invBisect r.toNat s)
  | invInterp (r : Word16) (hp : s.ph = .invInterp) (hr : s.raw = some r) : PhaseStep s (invInterp r.toNat s)

theorem seqStep_next {s t : State} (h : seqStep s = .next t) : PhaseStep s t := by
  unfold seqStep at h
  cases hp : s.ph <;> simp only [hp] at h
  case idle => cases h; exact .idle hp
  case spiXfer =>
    obtain ⟨f, -, h⟩ := withOperand_next h
    cases h; exact .spiXfer f hp
  case tplArm =>
    obtain ⟨n, -, h⟩ := withOperand_next h
    obtain ⟨-, h⟩ := whenInsideRxw_next h
    cases h; exact .tplArm n hp
  case tplTx =>
    obtain ⟨f, -, h⟩ := withOperand_next h
    cases h; exact .tplTx f hp
  case tplPoll =>
    obtain ⟨n, hn, h⟩ := withOperand_next h
    obtain ⟨-, h⟩ := whenInsideRxw_next h
    cases h; exact .tplPoll n hp hn
  case tplTimeout => cases h; exact .tplTimeout hp
  case tplDecode =>
    obtain ⟨n, hn, h⟩ := withOperand_next h
    obtain ⟨-, h⟩ := whenInsideRxw_next h
    cases h; exact .tplDecode n hp hn
  case tblFill =>
    obtain ⟨-, h⟩ := whenThermalLegal_next h
    cases h; exact .tblFill hp
  case invRange =>
    obtain ⟨r, hr, h⟩ := withOperand_next h
    obtain ⟨-, h⟩ := whenTableFit_next h
    cases h; exact .invRange r hp hr
  case invBisect =>
    obtain ⟨r, hr, h⟩ := withOperand_next h
    obtain ⟨-, h⟩ := whenTableFit_next h
    obtain ⟨-, h⟩ := whenInsideTbl_next h
    cases h; exact .invBisect r hp hr
  case invInterp =>
    obtain ⟨r, hr, h⟩ := withOperand_next h
    obtain ⟨-, h⟩ := whenTableFit_next h
    obtain ⟨-, h⟩ := whenInsideTbl_next h
    cases h; exact .invInterp r hp hr

/-! ### The issuing step -/

/-- What the issuing step of an operation leaves (R19, R22): ENC and DEC complete in it, the others are in their first
phase. -/
inductive IssueStep (s : State) : State → Prop
  | enc (f : Frame) : IssueStep s (complete .ok { s with wout := some (encodeFrame f) })
  | dec (w : Block) : IssueStep s (complete .ok { s with fout := some (decodeBlock w) })
  | spix (f : Frame) (hm : s.cfg.mode = .spi) (hf : s.txf = some f) : IssueStep s (issueTransfer .spiXfer s)
  | tplx (f : Frame) (n : Word16) (hm : s.cfg.mode ≠ .spi) (hf : s.txf = some f) (hn : s.nfr = some n)
      (h1 : 1 ≤ n.toNat) (h2 : n.toNat ≤ s.cfg.maxFrames) : IssueStep s (issueTransfer .tplArm s)
  | tbld (hv : tblValidOf s.status = false) : IssueStep s (issue .tblFill s)
  | tinv (r : Word16) (hv : tblValidOf s.status = true) (hr : s.raw = some r) : IssueStep s (issue .invRange s)

theorem issueOnly_next {i : Instr} {s t : State} (h : issueOnly i s = .next t) : ready s ∧ IssueStep s t := by
  cases i <;> rw [issueOnly] at h
  case enc =>
    rw [execEnc] at h
    obtain ⟨hb, hp, f, -, hrun⟩ := startEnc_next h
    cases hrun; exact ⟨⟨hb, hp⟩, .enc f⟩
  case dec =>
    rw [execDec] at h
    obtain ⟨hb, hp, w, -, hrun⟩ := startDec_next h
    cases hrun; exact ⟨⟨hb, hp⟩, .dec w⟩
  case spix =>
    obtain ⟨hb, hp, hm, f, hf, hrun⟩ := startSpix_next h
    cases hrun; exact ⟨⟨hb, hp⟩, .spix f hm hf⟩
  case tplx =>
    obtain ⟨hb, hp, hm, f, n, hf, hn, h1, h2, hrun⟩ := startTplx_next h
    cases hrun; exact ⟨⟨hb, hp⟩, .tplx f n hm hf hn h1 h2⟩
  case tbld =>
    obtain ⟨hb, hp, hv, -, hrun⟩ := startTbld_next h
    cases hrun; exact ⟨⟨hb, hp⟩, .tbld hv⟩
  case tinv =>
    obtain ⟨hb, hp, hv, r, hr, -, hrun⟩ := startTinv_next h
    cases hrun; exact ⟨⟨hb, hp⟩, .tinv r hv hr⟩

/-! ### The parts of a step -/

/-- `P` is kept by every part that a step other than a reset is made of: the host's queue moving on, a read, a write of
an operand register while BUSY = 0, the issue of an operation, and one phase of the sequencer. -/
structure KeptByParts (P : State → Prop) : Prop where
  host : ∀ s h, P s → P { s with host := h }
  read : ∀ s n v, P s → P (deliver n v s)
  operands : ∀ s txf nfr win raw, busyOf s.status = false → P s →
    P { s with txf := txf, nfr := nfr, win := win, raw := raw }
  issue : ∀ s t, ready s → IssueStep s t → P s → P t
  phase : ∀ s t, PhaseStep s t → P s → P t

section
variable {P : State → Prop} {s t : State}

theorem KeptByParts.seqRun (h : KeptByParts P) {k : Nat} (hs : P s) (hrun : seqRun k s = .next t) : P t := by
  induction k generalizing s with
  | zero => cases hrun; exact hs
  | succ k ih =>
    unfold Machine.seqRun at hrun
    split at hrun
    next u hu => exact ih (h.phase s u (seqStep_next hu) hs) hrun
    next => cases hrun
    next => cases hrun

/-- A whole operation is its issue and its phases (`Obligations.PhasesReachWholeOperation`). -/
theorem KeptByParts.exec (h : KeptByParts P) {i : Instr} (hs : P s) (hexec : exec i s = .next t) : P t := by
  obtain ⟨u, hu, k, -, hrun⟩ := phasesReachWholeOperation i s t hexec
  obtain ⟨hready, hissue⟩ := issueOnly_next hu
  exact h.seqRun (h.issue s u hready hissue hs) hrun

theorem KeptByParts.seqStep (h : KeptByParts P) (hs : P s) (hstep : seqStep s = .next t) : P t :=
  h.phase s t (seqStep_next hstep) hs

theorem busyOf_of_hostWrite_next {n : Nat} {v : RegVal} (h : hostWrite n v s = .next t) :
    busyOf s.status = false := by
  unfold hostWrite at h
  split at h
  next => cases h
  next hb => exact Bool.eq_false_of_not_eq_true hb

theorem KeptByParts.hostWait (h : KeptByParts P) (hs : P s) (hwait : hostWait s = .next t) : P t := by
  unfold Machine.hostWait at hwait
  split at hwait
  · cases hwait
    exact h.read s _ _ hs
  · exact h.seqStep (h.host s _ hs) hwait

theorem KeptByParts.serve (h : KeptByParts P) {a : HostAccess} (ha : a ≠ .reset) (hs : P s)
    (hserve : serve a s = .next t) : P t := by
  unfold Machine.serve at hserve
  split at hserve
  next =>
    obtain ⟨i, hexec⟩ := runCommand_next hserve
    exact h.exec hs hexec
  next =>
    have hb := busyOf_of_hostWrite_next hserve
    obtain ⟨txf, nfr, win, raw, rfl⟩ := hostWrite_next hserve
    exact h.operands s txf nfr win raw hb hs
  next =>
    obtain ⟨i, hissue⟩ := postCommand_next hserve
    obtain ⟨hready, hissue⟩ := issueOnly_next hissue
    exact h.issue s t hready hissue hs
  next =>
    obtain ⟨v, rfl⟩ := hostRead_next hserve
    exact h.read s _ v hs
  next => exact h.hostWait hs hserve
  next => exact h.seqStep hs hserve
  next => exact absurd rfl ha

theorem KeptByParts.step (h : KeptByParts P) (hs : P s) (hreset : s.host.head? ≠ some .reset)
    (hstep : step s = .next t) : P t := by
  cases hhost : s.host with
  | nil =>
    rw [Machine.step, hhost] at hstep
    exact h.seqStep hs hstep
  | cons a rest =>
    rw [step_of_host_cons hhost] at hstep
    rw [hhost] at hreset
    exact h.serve (fun ha => hreset (ha ▸ rfl)) (h.host s rest hs) hstep

end

/-! ### The trace only grows (10_state R29) -/

section
variable (s : State)

theorem trace_prefix_tplArm (n : Nat) : s.trace <+: (tplArm n s).trace := by
  cases ha : s.env.armAt 0 with
  | armOk => rw [tplArm_ok ha]; exact List.prefix_append _ _
  | armFail => rw [tplArm_fail ha]; exact List.prefix_append _ _

theorem trace_prefix_tplSent (a : XferAns) : s.trace <+: (tplSent a s).trace := by
  cases a with
  | ok r => exact List.prefix_rfl
  | timeout | fail => exact List.prefix_append _ _

theorem trace_prefix_tplTx (f : Frame) : s.trace <+: (tplTx f s).trace := by
  rw [tplTx_eq]
  exact (List.prefix_append _ _).trans (trace_prefix_tplSent (transmitted f s) _)

theorem trace_prefix_tplPoll (n : Nat) : s.trace <+: (tplPoll n s).trace := by
  by_cases hbud : s.bud = 0
  · rw [tplPoll_spent hbud]
  · cases hp : s.env.pollAt 0 with
    | busy => rw [tplPoll_busy hbud hp]; exact List.prefix_append _ _
    | idle => rw [tplPoll_idle hbud hp]; exact List.prefix_append _ _

theorem trace_invRange (raw : Nat) : (invRange raw s).trace = s.trace := by
  unfold invRange
  split_ifs <;> rfl

theorem trace_invBisect (raw : Nat) : (invBisect raw s).trace = s.trace := by
  unfold invBisect
  split_ifs <;> rfl

end

theorem PhaseStep.trace_prefix {s t : State} (h : PhaseStep s t) : s.trace <+: t.trace := by
  cases h with
  | idle => exact List.prefix_rfl
  | spiXfer f => rw [Machine.spiXfer, spiAnswered_trace]; exact List.prefix_append _ _
  | tplArm n => exact trace_prefix_tplArm s _
  | tplTx f => exact trace_prefix_tplTx s f
  | tplPoll n => exact trace_prefix_tplPoll s _
  | tplTimeout => exact List.prefix_append _ _
  | tplDecode n | tblFill => exact List.prefix_rfl
  | invRange r => rw [trace_invRange]
  | invBisect r => rw [trace_invBisect]
  | invInterp r => exact List.prefix_rfl

theorem IssueStep.trace_eq {s t : State} (h : IssueStep s t) : t.trace = s.trace := by cases h <;> rfl

/-- No part of a step takes an entry from the trace. -/
theorem trace_prefix_kept (l : List Event) : KeptByParts fun s => l <+: s.trace where
  host _ _ h := h
  read _ _ _ h := h
  operands _ _ _ _ _ _ h := h
  issue _ _ _ hissue h := hissue.trace_eq ▸ h
  phase _ _ hphase h := h.trans hphase.trace_prefix

/-- Settles O59: a step is made of parts that keep the old trace at the front of the new one. -/
theorem traceOnlyGrows : Obligations.TraceOnlyGrows := by
  intro s t hreset h
  obtain ⟨ev, hev⟩ := (trace_prefix_kept s.trace).step List.prefix_rfl hreset h
  exact ⟨ev, hev.symm⟩

end Sys2Proof.Machine
end

section
/-! The invariant (10_state R10 to R33): the clauses of Inv that do not speak of the phase, how an operation ends in
them, and that reset gives Inv and every part of a step keeps it. -/

namespace Sys2Proof.Machine

/-- The clauses of Inv that hold in every phase alike. -/
structure Sound (s : State) : Prop where
  legal : CfgLegal s.cfg
  txw : Memory.wf s.txw ∧ insideSpace s.txw 8
  rxw : Memory.wf s.rxw ∧ insideSpace s.rxw (8 * s.cfg.maxFrames)
  rxf : heldBelow s.rxf s.rxn.toNat ∧ s.rxn.toNat ≤ s.cfg.maxFrames
  tbl : (tblValidOf s.status = false → s.tbl = []) ∧ (tblValidOf s.status = true → tableFit s.cfg s.tbl = true)
  reserved : reservedOf s.status = 0#2
  csTx : s.csTx = .deasserted
  bud : s.bud ≤ budget0 s.cfg

section
variable {s : State}

theorem Inv.sound (h : Inv s) : Sound s := { h with reserved := h.status.1, csTx := h.engines.2 }

theorem Inv.busyOf_of_ph (h : Inv s) (hp : s.ph ≠ .idle) : busyOf s.status = true := h.busy.1.2 hp

theorem Inv.ph_of_not_busy (h : Inv s) (hb : busyOf s.status = false) : s.ph = .idle := by
  by_contra hp
  rw [h.busyOf_of_ph hp] at hb
  cases hb

theorem Inv.sArmed (h : Inv s) {p : Phase} (hp : s.ph = p) : s.sArmed = armedPhase p := hp ▸ h.engines.1

/-- With no operation in progress the clauses on the phases of the operations say nothing. -/
theorem Sound.inv_of_idle (h : Sound s) (hp : s.ph = .idle) (hb : busyOf s.status = false) (herr : errOf s.status ≠ 3#2)
    (ha : s.sArmed = false) : Inv s :=
  { h with
    status := ⟨h.reserved, herr⟩
    busy := by simp [hp, hb]
    engines := ⟨by rw [ha, hp]; rfl, h.csTx⟩
    spi := by simp [hp]
    tpl := by simp [hp, tplPhase]
    fill := by simp [hp]
    inv := by simp [hp, invPhase] }

/-! ### The end of an operation -/

theorem Sound.inv_complete (h : Sound s) (ha : s.sArmed = false) (e : Code) : Inv (complete e s) := by
  have hsound : Sound (complete e s) :=
    { h with
      tbl := by simpa [tblValidOf_completed] using h.tbl
      reserved := by simpa [reservedOf_completed] using h.reserved }
  refine hsound.inv_of_idle rfl (busyOf_completed e _) ?_ ha
  rw [complete_status, errOf_completed]
  cases e <;> decide

theorem Sound.putRxn_zero (h : Sound s) : Sound (putRxn 0 s) :=
  { h with rxf := ⟨by simpa using heldBelow_nil, Nat.zero_le _⟩ }

theorem Sound.clear_rxw (h : Sound s) : Sound { s with rxw := [] } :=
  { h with rxw := ⟨.nil, fun _ hp => absurd hp List.not_mem_nil⟩ }

theorem Sound.inv_raiseError (h : Sound s) (ha : s.sArmed = false) (e : Code) : Inv (raiseError e s) :=
  h.clear_rxw.putRxn_zero.inv_complete ha e

theorem Sound.inv_reading (h : Sound s) (ha : s.sArmed = false) (tenths : Int) (ok : Bool) :
    Inv (reading tenths ok s) := by
  refine Sound.inv_complete ?_ ?_ .ok
  · exact { h with
      tbl := by simpa [tblValidOf_putInRange] using h.tbl
      reserved := by simpa [reservedOf_putInRange] using h.reserved }
  · exact ha

/-- TXW holds one wire block (20_memory R35). -/
theorem Sound.writeBlock_txw (h : Sound s) (w : Block) :
    Memory.wf (Memory.writeBlock s.txw 0 w) ∧ insideSpace (Memory.writeBlock s.txw 0 w) 8 :=
  ⟨Memory.wf_writeBlock h.txw.1 0 w, insideSpace_writeList h.txw.2 (by simp [blockBytes])⟩

theorem Sound.writeBlock_rxw (h : Sound s) (w : Block) :
    Memory.wf (Memory.writeBlock s.rxw 0 w) ∧ insideSpace (Memory.writeBlock s.rxw 0 w) (8 * s.cfg.maxFrames) := by
  have hframes := h.legal.frames.1
  exact ⟨Memory.wf_writeBlock h.rxw.1 0 w, insideSpace_writeList h.rxw.2 (by simp [blockBytes]; omega)⟩

/-! ### SPIX -/

theorem heldBelow.eq_nil {α : Type} {m : Memory α} (h : heldBelow m 0) : m = [] := List.map_eq_nil_iff.1 h

/-- While a transfer has no result RXF is empty (10_state R17). -/
theorem Sound.rxf_nil (h : Sound s) (hn : s.rxn = 0#16) : s.rxf = [] := by
  have hheld := h.rxf.1
  rw [hn] at hheld
  exact hheld.eq_nil

theorem Sound.inv_spiAnswered (h : Sound s) (ha : s.sArmed = false) (hn : s.rxn = 0#16) (a : XferAns) :
    Inv (spiAnswered a s) := by
  cases a with
  | timeout => exact h.inv_raiseError ha .timeout
  | fail => exact h.inv_raiseError ha .busBusy
  | ok r =>
    have hrxf := spiAnswered_ok_rxf (h.rxf_nil hn) r
    refine Sound.inv_complete ?_ ?_ .ok
    · exact { h with
        rxw := h.writeBlock_rxw r
        rxf := ⟨(congrArg (heldBelow · 1) hrxf).mpr rfl, h.legal.frames.1⟩ }
    · exact ha

theorem Inv.spiXfer (h : Inv s) (hp : s.ph = .spiXfer) (f : Frame) : Inv (spiXfer f s) := by
  obtain ⟨-, -, hn⟩ := h.spi hp
  refine Sound.inv_spiAnswered ?_ ?_ ?_ _
  · exact { h.sound with txw := h.sound.writeBlock_txw (encodeFrame f) }
  · exact h.sArmed hp
  · exact hn

/-! ### TPLX -/

/-- From one phase of TPLX to another: what the phases may write, and what TPL_DECODE needs (43_tpl_engine R84). -/
theorem Inv.tpl_phase (h : Inv s) (hs : tplPhase s.ph = true) {p : Phase} {txw rxw : Memory Byte} {bud : Nat}
    {armed : Bool} {cs : Level} {trace : List Event} {env : Env} (hp : tplPhase p = true)
    (htxw : Memory.wf txw ∧ insideSpace txw 8) (hrxw : Memory.wf rxw ∧ insideSpace rxw (8 * s.cfg.maxFrames))
    (hbud : bud ≤ budget0 s.cfg) (harmed : armed = armedPhase p) (hcs : cs = .deasserted)
    (hdecode : p = .tplDecode → ∀ n, s.nfr = some n → heldBelow rxw (8 * n.toNat)) :
    Inv { s with ph := p, txw := txw, rxw := rxw, bud := bud, sArmed := armed, csTx := cs, trace := trace,
                 env := env } := by
  have hidle : ∀ q, tplPhase q = true → q ≠ .idle ∧ q ≠ .spiXfer ∧ q ≠ .tblFill ∧ invPhase q ≠ true := by
    intro q
    cases q <;> simp [tplPhase, invPhase]
  obtain ⟨hpi, hpspi, hpfill, hpinv⟩ := hidle p hp
  have hb := h.busyOf_of_ph (hidle s.ph hs).1
  obtain ⟨hm, hf, hrxn, n, hn, h1, h2, -⟩ := h.tpl hs
  exact { h with
    txw := htxw
    rxw := hrxw
    busy := ⟨⟨fun _ => hpi, fun _ => hb⟩, h.busy.2⟩
    engines := ⟨harmed, hcs⟩
    bud := hbud
    spi := fun h => absurd h hpspi
    tpl := fun _ => ⟨hm, hf, hrxn, n, hn, h1, h2, fun h => hdecode h n hn⟩
    fill := fun h => absurd h hpfill
    inv := fun h => absurd h hpinv }

theorem Inv.tplArm (h : Inv s) (hp : s.ph = .tplArm) (n : Nat) : Inv (tplArm n s) := by
  cases ha : s.env.armAt 0 with
  | armOk =>
    rw [tplArm_ok ha]
    exact h.tpl_phase (by rw [hp]; rfl) rfl h.txw h.sound.clear_rxw.rxw h.bud rfl h.sound.csTx nofun
  | armFail =>
    rw [tplArm_fail ha]
    refine Sound.inv_raiseError ?_ ?_ .busBusy
    · exact { h.sound with }
    · exact h.sArmed hp

theorem transmitted_csTx (f : Frame) (h : s.csTx = .deasserted) : (transmitted f s).csTx = .deasserted := by
  simp [transmitted, h]

theorem Sound.transmitted (h : Sound s) (f : Frame) : Sound (transmitted f s) :=
  { h with txw := h.writeBlock_txw (encodeFrame f), csTx := transmitted_csTx f h.csTx }

theorem Sound.abort (h : Sound s) : Sound (sAbort s) := { h with rxw := h.clear_rxw.rxw }

theorem Inv.tplTx (h : Inv s) (hp : s.ph = .tplTx) (f : Frame) : Inv (tplTx f s) := by
  rw [tplTx_eq]
  cases s.env.nextXfer with
  | ok r =>
    exact h.tpl_phase (by rw [hp]; rfl) rfl (h.sound.writeBlock_txw (encodeFrame f)) h.rxw le_rfl
      ((h.sArmed hp).trans rfl) (transmitted_csTx f h.sound.csTx) nofun
  | timeout => exact (h.sound.transmitted f).abort.inv_raiseError rfl .timeout
  | fail => exact (h.sound.transmitted f).abort.inv_raiseError rfl .busBusy

/-- The blocks of `S_DATA` fill RXW from address 0 on (20_memory R48). -/
theorem heldBelow_sData (e : Env) (n : Nat) : heldBelow (Memory.writeList [] 0 (e.sData n)) (8 * n) := by
  have hheld := heldBelow_writeList heldBelow_nil (e.sData n)
  rwa [Nat.zero_add, length_sData] at hheld

theorem Inv.tplPoll (h : Inv s) (hp : s.ph = .tplPoll) {n : Word16} (hn : s.nfr = some n) :
    Inv (tplPoll n.toNat s) := by
  have hs : tplPhase s.ph = true := by rw [hp]; rfl
  by_cases hbud : s.bud = 0
  · rw [tplPoll_spent hbud]
    exact h.tpl_phase hs rfl h.txw h.rxw h.bud ((h.sArmed hp).trans rfl) h.sound.csTx nofun
  · cases hpoll : s.env.pollAt 0 with
    | busy =>
      rw [tplPoll_busy hbud hpoll]
      exact h.tpl_phase hs hs h.txw h.rxw ((Nat.sub_le _ _).trans h.bud) h.engines.1 h.sound.csTx
        (fun hd => absurd (hp.symm.trans hd) nofun)
    | idle =>
      obtain ⟨-, -, -, m, hm, -, hmax, -⟩ := h.tpl hs
      obtain rfl := Option.some.inj (hm.symm.trans hn)
      have hheld := heldBelow_sData (s.env.afterPolls 1) m.toNat
      have hinside := fun p hp => (hheld.inside p hp).trans_le (Nat.mul_le_mul_left 8 hmax)
      rw [tplPoll_idle hbud hpoll]
      refine h.tpl_phase hs rfl h.txw ⟨hheld.wf, hinside⟩ h.bud rfl h.sound.csTx fun _ k hk => ?_
      rwa [← Option.some.inj (hn.symm.trans hk)]

theorem Inv.tplTimeout (h : Inv s) : Inv (tplTimeout s) := h.sound.abort.inv_raiseError rfl .timeout

theorem heldBelow.readBlock {m : Memory Byte} {n a : Nat} (h : heldBelow m n) (ha : a + 8 ≤ n) :
    ∃ w, m.readBlock a = some w := by
  obtain ⟨b0, h0⟩ := h.read_isSome (k := a) (by omega)
  obtain ⟨b1, h1⟩ := h.read_isSome (k := a + 1) (by omega)
  obtain ⟨b2, h2⟩ := h.read_isSome (k := a + 2) (by omega)
  obtain ⟨b3, h3⟩ := h.read_isSome (k := a + 3) (by omega)
  obtain ⟨b4, h4⟩ := h.read_isSome (k := a + 4) (by omega)
  obtain ⟨b5, h5⟩ := h.read_isSome (k := a + 5) (by omega)
  obtain ⟨b6, h6⟩ := h.read_isSome (k := a + 6) (by omega)
  obtain ⟨b7, h7⟩ := h.read_isSome (k := a + 7) (by omega)
  exact ⟨⟨b0, b1, b2, b3, b4, b5, b6, b7⟩, by simp only [Memory.readBlock, h0, h1, h2, h3, h4, h5, h6, h7]⟩

/-- From complete blocks every element of RXF gets a value (43_tpl_engine R94). -/
theorem heldBelow_decodeBlocks {rxw : Memory Byte} {n : Nat} (h : heldBelow rxw (8 * n)) :
    heldBelow (decodeBlocks rxw n 0 []) n := by
  have hblock : ∀ i, 0 ≤ i → i < 0 + n → rxw.readBlock (8 * i) = some ((rxw.readBlock (8 * i)).getD default) := by
    intro i _ hi
    obtain ⟨w, hw⟩ := h.readBlock (a := 8 * i) (by omega)
    rw [hw, Option.getD_some]
  rw [decodeBlocks_eq n 0 [] hblock]
  have hheld := heldBelow_writeList heldBelow_nil
    ((List.range n).map fun i => decodeBlock ((rxw.readBlock (8 * (0 + i))).getD default))
  rwa [List.length_map, List.length_range, Nat.zero_add] at hheld

theorem Inv.tplDecode (h : Inv s) (hp : s.ph = .tplDecode) {n : Word16} (hn : s.nfr = some n) :
    Inv (tplDecode n.toNat s) := by
  obtain ⟨-, -, hrxn, m, hm, -, hmax, hheld⟩ := h.tpl (by rw [hp]; rfl)
  obtain rfl := Option.some.inj (hm.symm.trans hn)
  have hrxf := heldBelow_decodeBlocks (hheld hp)
  rw [← h.sound.rxf_nil hrxn] at hrxf
  refine Sound.inv_complete ?_ ?_ .ok
  · refine { h.sound with rxf := ?_ }
    rw [putRxn_rxf, putRxn_rxn, BitVec.ofNat_toNat, BitVec.setWidth_eq, Memory.below_of_inside hrxf.inside]
    exact ⟨hrxf, hmax⟩
  · exact h.sArmed hp

/-! ### TBLD -/

theorem Inv.tblFill (h : Inv s) (hp : s.ph = .tblFill) : Inv (tblFill s) := by
  have hempty : s.tbl = [] := h.tbl.1 (h.fill hp)
  have hfit := h.legal.tableFit_fillTable
  refine Sound.inv_complete ?_ ?_ .ok
  · refine { h.sound with tbl := ?_, reserved := (reservedOf_putTblValid true _).trans h.sound.reserved }
    dsimp only
    rw [tblValidOf_putTblValid, hempty]
    exact ⟨nofun, fun _ => hfit⟩
  · exact h.sArmed hp

/-! ### TINV -/

/-- From one phase of TINV to another: a bracket around RAW inside the table, closed at the interpolation
(45_temp_inverter R112). -/
theorem Inv.inv_phase (h : Inv s) (hs : invPhase s.ph = true) {r : Word16} (hr : s.raw = some r) {p : Phase}
    {sl sr sm : Nat} (hp : p = .invBisect ∨ p = .invInterp) (hlr : sl < sr) (hin : sr < nt s.cfg)
    (hleft : r.toNat ≤ entryAt s sl) (hright : entryAt s sr ≤ r.toNat) (hstrict : 0 < sl → r.toNat < entryAt s sl)
    (hclosed : p = .invInterp → sr = sl + 1) :
    Inv { s with ph := p, sl := sl, sr := sr, sm := sm } := by
  have hidle : s.ph ≠ .idle := fun hi => by rw [hi] at hs; cases hs
  have hpi : p ≠ .idle := by rintro rfl; simp at hp
  have harmed : ∀ q, invPhase q = true → armedPhase q = false := by
    intro q
    cases q <;> simp [invPhase, armedPhase]
  have hpa : armedPhase p = false := by obtain rfl | rfl := hp <;> rfl
  have hb := h.busyOf_of_ph hidle
  have hv := (h.inv hs).1
  exact { h with
    busy := ⟨⟨fun _ => hpi, fun _ => hb⟩, h.busy.2⟩
    engines := ⟨by rw [hpa, ← harmed s.ph hs]; exact h.engines.1, h.engines.2⟩
    spi := by rintro rfl; simp at hp
    tpl := fun ht => by obtain rfl | rfl := hp <;> cases ht
    fill := by rintro rfl; simp at hp
    inv := fun _ => ⟨hv, r, hr, fun _ => ⟨hlr, hin, hleft, hright, hstrict⟩, hclosed⟩ }

theorem Inv.tableFit (h : Inv s) (hs : invPhase s.ph = true) : tableFit s.cfg s.tbl = true := h.tbl.2 (h.inv hs).1

theorem Inv.invRange (h : Inv s) (hp : s.ph = .invRange) {r : Word16} (hr : s.raw = some r) :
    Inv (invRange r.toNat s) := by
  have hs : invPhase s.ph = true := by rw [hp]; rfl
  obtain ⟨h2, -, -⟩ := tableFit_iff.1 (h.tableFit hs)
  unfold Machine.invRange
  split_ifs with hlow hhigh
  · exact h.sound.inv_reading (h.sArmed hp) _ _
  · exact h.sound.inv_reading (h.sArmed hp) _ _
  · exact h.inv_phase hs hr (.inl rfl) (by omega) (by omega) (by omega) (by omega)
      (fun h => absurd h (Nat.lt_irrefl 0)) nofun

/-- In the loop of TINV: the bracket (45_temp_inverter R112). -/
theorem Inv.bracket (h : Inv s) (hp : s.ph = .invBisect ∨ s.ph = .invInterp) {r : Word16} (hr : s.raw = some r) :
    s.sl < s.sr ∧ s.sr < nt s.cfg ∧ r.toNat ≤ entryAt s s.sl ∧ entryAt s s.sr ≤ r.toNat ∧
      (0 < s.sl → r.toNat < entryAt s s.sl) := by
  obtain ⟨-, q, hq, hbracket, -⟩ := h.inv (by obtain hp | hp := hp <;> rw [hp] <;> rfl)
  obtain rfl := Option.some.inj (hq.symm.trans hr)
  exact hbracket (by obtain hp | hp := hp <;> simp [hp])

theorem Inv.invBisect (h : Inv s) (hp : s.ph = .invBisect) {r : Word16} (hr : s.raw = some r) :
    Inv (invBisect r.toNat s) := by
  have hs : invPhase s.ph = true := by rw [hp]; rfl
  obtain ⟨hlr, hin, hleft, hright, hstrict⟩ := h.bracket (.inl hp) hr
  by_cases hadj : s.sl + 1 = s.sr
  · rw [invBisect_adjacent hadj]
    exact h.inv_phase hs hr (.inr rfl) hlr hin hleft hright hstrict fun _ => hadj.symm
  have hopen : s.ph = .invInterp → ∀ {a b : Nat}, a = b := fun hi => absurd (hp.symm.trans hi) nofun
  by_cases hprobe : entryAt s ((s.sl + s.sr) / 2) ≤ r.toNat
  · rw [invBisect_right hadj hprobe]
    exact h.inv_phase hs hr (.inl hp) (by omega) (by omega) hleft hprobe hstrict fun hi => hopen hi
  · rw [invBisect_left hadj hprobe]
    exact h.inv_phase hs hr (.inl hp) (by omega) hin (by omega) hright (by omega) fun hi => hopen hi

/-! ### One phase -/

theorem PhaseStep.inv {t : State} (hphase : PhaseStep s t) (h : Inv s) : Inv t := by
  cases hphase with
  | idle => exact h
  | spiXfer f hp => exact h.spiXfer hp f
  | tplArm n hp => exact h.tplArm hp _
  | tplTx f hp => exact h.tplTx hp f
  | tplPoll n hp hn => exact h.tplPoll hp hn
  | tplTimeout => exact h.tplTimeout
  | tplDecode n hp hn => exact h.tplDecode hp hn
  | tblFill hp => exact h.tblFill hp
  | invRange r hp hr => exact h.invRange hp hr
  | invBisect r hp hr => exact h.invBisect hp hr
  | invInterp r hp => exact h.sound.inv_reading (h.sArmed hp) _ _

/-! ### Issue -/

/-- An operation just issued: STATUS says so, and what is left to show is what its own phase asks. -/
theorem Sound.inv_of_issued (h : Sound s) {w : Byte} (hw : s.status = issuedStatus w) (hp : s.ph ≠ .idle)
    (ha : s.sArmed = armedPhase s.ph)
    (hspi : s.ph = .spiXfer → s.cfg.mode = .spi ∧ s.txf ≠ none ∧ s.rxn = 0#16)
    (htpl : tplPhase s.ph = true → s.cfg.mode ≠ .spi ∧ s.txf ≠ none ∧ s.rxn = 0#16 ∧
      ∃ n, s.nfr = some n ∧ 1 ≤ n.toNat ∧ n.toNat ≤ s.cfg.maxFrames ∧
        (s.ph = .tplDecode → heldBelow s.rxw (8 * n.toNat)))
    (hfill : s.ph = .tblFill → tblValidOf s.status = false)
    (hinv : invPhase s.ph = true → s.ph = .invRange ∧ tblValidOf s.status = true ∧ ∃ r, s.raw = some r) : Inv s :=
  { h with
    status := ⟨h.reserved, by rw [hw, errOf_issued]; decide⟩
    busy := by simp [hw, busyOf_issued, doneOf_issued, hp]
    engines := ⟨ha, h.csTx⟩
    spi := hspi
    tpl := htpl
    fill := hfill
    inv := fun hi => by
      obtain ⟨hrange, hv, r, hr⟩ := hinv hi
      exact ⟨hv, r, hr, fun hne => absurd hrange hne, fun hinterp => absurd (hrange.symm.trans hinterp) nofun⟩ }

theorem Sound.issue (h : Sound s) (p : Phase) : Sound (issue p s) :=
  { h with
    tbl := by simpa [tblValidOf_issued] using h.tbl
    reserved := by simpa [reservedOf_issued] using h.reserved }

theorem IssueStep.inv {t : State} (hissue : IssueStep s t) (hready : ready s) (h : Inv s) : Inv t := by
  have ha : s.sArmed = false := h.sArmed hready.2
  cases hissue with
  | enc f | dec w =>
    refine Sound.inv_complete ?_ ?_ .ok
    · exact { h.sound with }
    · exact ha
  | spix f hm hf =>
    exact (h.sound.issue .spiXfer).putRxn_zero.inv_of_issued rfl nofun ha (fun _ => ⟨hm, by simp [hf], rfl⟩) nofun nofun
      nofun
  | tplx f n hm hf hn h1 h2 =>
    exact (h.sound.issue .tplArm).putRxn_zero.inv_of_issued rfl nofun ha nofun
      (fun _ => ⟨hm, by simp [hf], rfl, n, hn, h1, h2, nofun⟩) nofun nofun
  | tbld hv =>
    exact (h.sound.issue .tblFill).inv_of_issued rfl nofun ha nofun nofun
      (fun _ => (tblValidOf_issued _).trans hv) nofun
  | tinv r hv hr =>
    exact (h.sound.issue .invRange).inv_of_issued rfl nofun ha nofun nofun nofun
      (fun _ => ⟨rfl, (tblValidOf_issued _).trans hv, r, hr⟩)

end

/-! ### Reset, and every step -/

/-- Settles O53: after reset every space is empty, no operation is in progress and the table is not built. -/
theorem invariantAtReset : Obligations.InvariantAtReset := by
  intro c hc
  have hstatus : busyOf 0x00#8 = false ∧ errOf 0x00#8 ≠ 3#2 ∧ reservedOf 0x00#8 = 0#2 ∧ tblValidOf 0x00#8 = false := by
    decide
  obtain ⟨hidle, herr, hreserved, hunbuilt⟩ := hstatus
  have hempty : Memory.wf ([] : Memory Byte) := .nil
  refine Sound.inv_of_idle (s := State.resetWith c) ?_ rfl hidle herr rfl
  exact ⟨hc, ⟨hempty, nofun⟩, ⟨hempty, nofun⟩, ⟨heldBelow_nil, Nat.zero_le _⟩,
    ⟨fun _ => rfl, fun hv => absurd (hunbuilt.symm.trans hv) nofun⟩, hreserved, rfl, Nat.zero_le _⟩

/-- The host writes an operand register only while no operation is in progress, when no clause of Inv speaks of one. -/
theorem inv_kept : KeptByParts Inv where
  host _ _ h := { h with }
  read _ _ _ h := { h with }
  operands _ _ _ _ _ hb h :=
    Sound.inv_of_idle { h.sound with } (h.ph_of_not_busy hb) hb h.status.2 (h.sArmed (h.ph_of_not_busy hb))
  issue _ _ hready hissue h := hissue.inv hready h
  phase _ _ hphase h := hphase.inv h

/-- Settles O54: the reset input gives the state of O53 again, and every other step is made of parts that keep Inv. -/
theorem everyStepKeepsInvariant : Obligations.EveryStepKeepsInvariant := by
  intro s t h hstep
  by_cases hreset : s.host.head? = some .reset
  · obtain ⟨rest, hhost⟩ := List.head?_eq_some_iff.1 hreset
    rw [step_of_host_cons hhost] at hstep
    obtain rfl := resetInput_next hstep
    exact { invariantAtReset s.cfg h.legal with }
  · exact inv_kept.step h hreset hstep

/-! ### What follows from the invariant -/

/-- Settles O55: in each phase the invariant gives what the phase's checks ask. -/
theorem sequencerNeverStuck : Obligations.SequencerNeverStuck := by
  intro s h hb hhost
  rw [step, hhost]
  have htplOperands : tplPhase s.ph = true → ∃ f n, TplOperands f n s := fun hs => by
    obtain ⟨-, hf, -, n, hn, -, hmax, -⟩ := h.tpl hs
    obtain ⟨f, hf⟩ := Option.ne_none_iff_exists'.1 hf
    exact ⟨f, n, hf, hn, hmax⟩
  have hinvOperands : invPhase s.ph = true → ∃ r, InvOperands r s := fun hs => by
    obtain ⟨-, r, hr, -⟩ := h.inv hs
    exact ⟨r, hr, h.tableFit hs⟩
  cases hp : s.ph <;> rw [hp] at htplOperands hinvOperands
  case idle => exact absurd hp (h.busy.1.1 hb)
  case spiXfer =>
    obtain ⟨-, hf, -⟩ := h.spi hp
    obtain ⟨f, hf⟩ := Option.ne_none_iff_exists'.1 hf
    exact ⟨_, seqStep_of_spiXfer hp hf⟩
  case tplArm =>
    obtain ⟨f, n, ho⟩ := htplOperands rfl
    exact ⟨_, seqStep_of_tplArm hp ho.nfr ho.inside⟩
  case tplTx =>
    obtain ⟨f, n, ho⟩ := htplOperands rfl
    exact ⟨_, seqStep_of_tplTx hp ho.txf⟩
  case tplPoll =>
    obtain ⟨f, n, ho⟩ := htplOperands rfl
    exact ⟨_, seqStep_of_tplPoll hp ho.nfr ho.inside⟩
  case tplTimeout => exact ⟨_, seqStep_of_tplTimeout hp⟩
  case tplDecode =>
    obtain ⟨f, n, ho⟩ := htplOperands rfl
    exact ⟨_, seqStep_of_tplDecode hp ho.nfr ho.inside⟩
  case tblFill => exact ⟨_, seqStep_of_tblFill hp h.legal.thermalLegal⟩
  case invRange =>
    obtain ⟨r, ho⟩ := hinvOperands rfl
    exact ⟨_, seqStep_of_invRange hp ho.raw ho.fit⟩
  case invBisect =>
    obtain ⟨r, ho⟩ := hinvOperands rfl
    obtain ⟨hlr, hin, -⟩ := h.bracket (.inl hp) ho.raw
    exact ⟨_, seqStep_of_invBisect hp ho.raw ho.fit hlr hin⟩
  case invInterp =>
    obtain ⟨r, ho⟩ := hinvOperands rfl
    obtain ⟨hlr, hin, -⟩ := h.bracket (.inr hp) ho.raw
    exact ⟨_, seqStep_of_invInterp hp ho.raw ho.fit hlr hin⟩

end Sys2Proof.Machine
end

section
/-! What operations and steps leave unchanged (00_scope R2, 44_temp_table R106, 60_exceptions R122, R136): the table
once it is built, the operands, the other subsystem, and what an error leaves. -/

namespace Sys2Proof.Machine

/-! ### The bits of STATUS that a transfer keeps -/

theorem inRangeOf_high : ∀ w : Byte, inRangeOf (w &&& 0xF0#8) = inRangeOf w := by decide

theorem tblValidOf_high : ∀ w : Byte, tblValidOf (w &&& 0xF0#8) = tblValidOf w := by decide

section
variable {s t : State}

theorem inRangeOf_of_outsideTransport (h : outsideTransport t = outsideTransport s) :
    inRangeOf t.status = inRangeOf s.status := by
  have hhigh : t.status &&& 0xF0#8 = s.status &&& 0xF0#8 := congrArg State.status h
  rw [← inRangeOf_high, hhigh, inRangeOf_high]

theorem tblValidOf_of_outsideTransport (h : outsideTransport t = outsideTransport s) :
    tblValidOf t.status = tblValidOf s.status := by
  have hhigh : t.status &&& 0xF0#8 = s.status &&& 0xF0#8 := congrArg State.status h
  rw [← tblValidOf_high, hhigh, tblValidOf_high]

/-! ### The table (20_memory R52) -/

theorem reading_tbl (tenths : Int) (ok : Bool) (s : State) :
    (reading tenths ok s).tbl = s.tbl ∧ tblValidOf (reading tenths ok s).status = tblValidOf s.status :=
  ⟨rfl, (tblValidOf_completed .ok _).trans (tblValidOf_putInRange ok _)⟩

theorem tbl_of_outsideTransport (h : outsideTransport t = outsideTransport s) :
    t.tbl = s.tbl ∧ tblValidOf t.status = tblValidOf s.status :=
  ⟨(congrArg State.tbl h :), tblValidOf_of_outsideTransport h⟩

/-- No phase but TBL_FILL writes the table. -/
theorem PhaseStep.tbl_eq (h : PhaseStep s t) (hp : s.ph ≠ .tblFill) :
    t.tbl = s.tbl ∧ tblValidOf t.status = tblValidOf s.status := by
  cases h with
  | idle => exact ⟨rfl, rfl⟩
  | spiXfer f => exact tbl_of_outsideTransport (outsideTransport_spiXfer s f)
  | tplArm n => exact tbl_of_outsideTransport (outsideTransport_tplArm s _)
  | tplTx f => exact tbl_of_outsideTransport (outsideTransport_tplTx s f)
  | tplPoll n => exact tbl_of_outsideTransport (outsideTransport_tplPoll s _)
  | tplTimeout => exact tbl_of_outsideTransport (outsideTransport_tplTimeout s)
  | tplDecode n => exact tbl_of_outsideTransport (outsideTransport_tplDecode s _)
  | tblFill hfill => exact absurd hfill hp
  | invRange r =>
    unfold Machine.invRange
    split_ifs
    · exact reading_tbl _ _ s
    · exact reading_tbl _ _ s
    · exact ⟨rfl, rfl⟩
  | invBisect r =>
    unfold Machine.invBisect
    split_ifs <;> exact ⟨rfl, rfl⟩
  | invInterp r => exact reading_tbl _ _ s

/-- No issue writes the table; ENC and DEC, which complete in it, do not either. -/
theorem IssueStep.tbl_eq (h : IssueStep s t) : t.tbl = s.tbl ∧ tblValidOf t.status = tblValidOf s.status := by
  cases h with
  | enc | dec => exact ⟨rfl, tblValidOf_completed .ok _⟩
  | spix | tplx | tbld | tinv => exact ⟨rfl, tblValidOf_issued _⟩

end

/-- A built table stays through every part of a step: under Inv TBL_FILL is entered with TBL_VALID = 0 only. -/
theorem builtTable_kept (tbl : Memory Word16) :
    KeptByParts fun s => Inv s ∧ s.tbl = tbl ∧ tblValidOf s.status = true where
  host s h := fun ⟨hinv, htbl, hv⟩ => ⟨inv_kept.host s h hinv, htbl, hv⟩
  read s n v := fun ⟨hinv, htbl, hv⟩ => ⟨inv_kept.read s n v hinv, htbl, hv⟩
  operands s txf nfr win raw hb := fun ⟨hinv, htbl, hv⟩ =>
    ⟨inv_kept.operands s txf nfr win raw hb hinv, htbl, hv⟩
  issue s t hready hissue := fun ⟨hinv, htbl, hv⟩ =>
    ⟨inv_kept.issue s t hready hissue hinv, hissue.tbl_eq.1.trans htbl, hissue.tbl_eq.2.trans hv⟩
  phase s t hphase := fun ⟨hinv, htbl, hv⟩ => by
    have hfill : s.ph ≠ .tblFill := fun hp => absurd ((hinv.fill hp).symm.trans hv) nofun
    obtain ⟨htbl', hv'⟩ := hphase.tbl_eq hfill
    exact ⟨inv_kept.phase s t hphase hinv, htbl'.trans htbl, hv'.trans hv⟩

/-- Settles O58: a step that is not a reset is made of parts that keep the built table. -/
theorem tableImmutable : Obligations.TableImmutable := by
  intro s t h hv hreset hstep
  exact ((builtTable_kept s.tbl).step ⟨h, rfl, hv⟩ hreset hstep).2

/-! ### The operands (10_state R11 to R14) -/

/-- What no operation writes: the operand registers, CFG, and the host's fields. -/
def operandsOf (s : State) :
    Option Frame × Option Word16 × Option Block × Option Word16 × Cfg × List HostAccess × List (Nat × RegVal) :=
  (s.txf, s.nfr, s.win, s.raw, s.cfg, s.host, s.seen)

section
variable {i : Instr} {s t : State}

theorem exec_operandsOf (h : exec i s = .next t) : operandsOf t = operandsOf s := by
  cases i with
  | enc => obtain ⟨f, -, rfl⟩ := exec_enc_next h; rfl
  | dec => obtain ⟨w, -, rfl⟩ := exec_dec_next h; rfl
  | spix =>
    have hout := exec_transfer_outsideTransport (.inl rfl) h
    exact (congrArg operandsOf hout :)
  | tplx =>
    have hout := exec_transfer_outsideTransport (.inr rfl) h
    exact (congrArg operandsOf hout :)
  | tbld =>
    have hout := exec_thermal_outsideThermal (.inl rfl) h
    exact (congrArg operandsOf hout :)
  | tinv =>
    have hout := exec_thermal_outsideThermal (.inr rfl) h
    exact (congrArg operandsOf hout :)

end

/-- Settles O50: a transfer keeps the state outside the transport and TBLD and TINV the state outside the temperature
components; ENC and DEC write one result. -/
theorem operandsUnchanged : Obligations.OperandsUnchanged := by
  intro i s t h
  simpa only [operandsOf, Prod.mk.injEq] using exec_operandsOf h

/-! ### The other subsystem (00_scope R2) -/

/-- Settles O52: the items of the one subsystem lie outside the other. -/
theorem subsystemsIndependent : Obligations.SubsystemsIndependent := by
  intro i s t h
  refine ⟨fun hi => ?_, fun hi => ?_⟩
  · have hout := exec_transfer_outsideTransport hi h
    exact ⟨(congrArg State.temp hout :), (congrArg State.tbl hout :), inRangeOf_of_outsideTransport hout,
      tblValidOf_of_outsideTransport hout, (congrArg State.sl hout :), (congrArg State.sr hout :),
      (congrArg State.sm hout :)⟩
  · have hout := exec_thermal_outsideThermal hi h
    exact ⟨(congrArg State.rxf hout :), (congrArg State.rxn hout :), (congrArg State.txw hout :),
      (congrArg State.rxw hout :), (congrArg State.bud hout :), (congrArg State.sArmed hout :),
      (congrArg State.csTx hout :), (congrArg State.trace hout :), (congrArg State.env hout :),
      (congrArg State.wout hout :), (congrArg State.fout hout :)⟩

/-! ### How an operation ends (60_exceptions R121, R122, R136) -/

section
variable {i : Instr} {s t : State}

/-- A transfer ends with `complete(OK)` or by raising an error. -/
theorem exec_transfer_ends (hi : i = .spix ∨ i = .tplx) (h : exec i s = .next t) :
    (∃ u, t = complete .ok u) ∨ ∃ e u, t = raiseError e u := by
  obtain rfl | rfl := hi
  · obtain ⟨f, -, rfl⟩ := exec_spix_next h
    cases s.env.nextXfer with
    | ok r => exact .inl ⟨_, rfl⟩
    | timeout | fail => exact .inr ⟨_, _, rfl⟩
  · obtain ⟨f, n, -, -, rfl⟩ := exec_tplx_next h
    obtain hrun | ⟨e, u, a, k, -, hrun, -, -⟩ | ⟨j, hrun⟩ := tplRun_ends n.toNat f (issueTransfer .tplArm s)
    · exact .inr ⟨_, _, hrun⟩
    · exact .inr ⟨_, _, hrun⟩
    · exact .inl ⟨_, hrun⟩

theorem transfer_of_error (h : exec i s = .next t) (herr : errOf t.status ≠ 0#2) : i = .spix ∨ i = .tplx := by
  by_contra hi
  rw [not_or] at hi
  exact herr (onlyTransfersFail i s t hi.1 hi.2 h)

end

/-- Settles O51: only a transfer ends with an error, it keeps the state outside the transport, and raising the error
empties RXF and RXW. -/
theorem errorLeavesTheRest : Obligations.ErrorLeavesTheRest := by
  intro i s t h herr
  have hi := transfer_of_error h herr
  have hout := exec_transfer_outsideTransport hi h
  have hempty : t.rxn = 0#16 ∧ t.rxf = [] ∧ t.rxw = [] := by
    obtain ⟨u, rfl⟩ | ⟨e, u, rfl⟩ := exec_transfer_ends hi h
    · exact absurd (errOf_completed .ok u.status) herr
    · exact ⟨rfl, Memory.below_zero u.rxf, rfl⟩
  obtain ⟨hrxn, hrxf, hrxw⟩ := hempty
  obtain ⟨htxf, hnfr, hwin, hraw, hcfg, -, -⟩ := operandsUnchanged i s t h
  refine ⟨(congrArg State.wout hout :), (congrArg State.fout hout :), (congrArg State.temp hout :),
    (congrArg State.tbl hout :), htxf, hnfr, hwin, hraw, hcfg, inRangeOf_of_outsideTransport hout,
    tblValidOf_of_outsideTransport hout, hrxn, ?_, ?_⟩
  · rw [hrxf]
    exact Memory.read_nil
  · rw [hrxw]
    exact Memory.read_nil

section
variable {i : Instr} {s t : State}

theorem exec_next_eq_complete (h : exec i s = .next t) : ∃ e u, t = complete e u := by
  by_cases hi : i = .spix ∨ i = .tplx
  · obtain ⟨u, ht⟩ | ⟨e, u, ht⟩ := exec_transfer_ends hi h
    · exact ⟨.ok, u, ht⟩
    · exact ⟨e, _, ht⟩
  · rw [not_or] at hi
    obtain ⟨u, ht⟩ := exec_next_eq_complete_ok hi.1 hi.2 h
    exact ⟨.ok, u, ht⟩

theorem spiAnswered_sArmed (a : XferAns) (s : State) : (spiAnswered a s).sArmed = s.sArmed := by cases a <;> rfl

theorem spiAnswered_csTx (a : XferAns) (s : State) : (spiAnswered a s).csTx = s.csTx := by cases a <;> rfl

/-- No operation leaves the slave armed or the chip-select asserted that was not before (R122). -/
theorem exec_engines (h : exec i s = .next t) (ha : s.sArmed = false) (hcs : s.csTx = .deasserted) :
    t.sArmed = false ∧ t.csTx = .deasserted := by
  cases i with
  | enc => obtain ⟨f, -, rfl⟩ := exec_enc_next h; exact ⟨ha, hcs⟩
  | dec => obtain ⟨w, -, rfl⟩ := exec_dec_next h; exact ⟨ha, hcs⟩
  | spix =>
    obtain ⟨f, -, rfl⟩ := exec_spix_next h
    exact ⟨(spiAnswered_sArmed _ _).trans ha, (spiAnswered_csTx _ _).trans hcs⟩
  | tplx =>
    obtain ⟨n, a, ev, -, -, -, -, harmed, hlevel⟩ := abortExactlyOnFailureAfterArm s t h
    rw [ha, ite_self] at harmed
    exact ⟨harmed, hlevel hcs⟩
  | tbld =>
    have hout := exec_thermal_outsideThermal (.inl rfl) h
    exact ⟨(congrArg State.sArmed hout).trans ha, (congrArg State.csTx hout).trans hcs⟩
  | tinv =>
    have hout := exec_thermal_outsideThermal (.inr rfl) h
    exact ⟨(congrArg State.sArmed hout).trans ha, (congrArg State.csTx hout).trans hcs⟩

end

/-- Settles O49: every operation ends with `complete`, which gives the phase and the flags. -/
theorem operationEndsIdle : Obligations.OperationEndsIdle := by
  intro i s t h ha hcs
  obtain ⟨harmed, hlevel⟩ := exec_engines h ha hcs
  obtain ⟨e, u, rfl⟩ := exec_next_eq_complete h
  refine ⟨rfl, busyOf_completed e _, doneOf_completed e _, ?_, harmed, hlevel⟩
  rw [complete_status, errOf_completed]
  cases e <;> decide

end Sys2Proof.Machine
end

section
/-! Commands, the host's accesses and the refusals of operations (10_state R19, R30, R31; 30_encoding R59 to R66;
60_exceptions R127). -/

namespace Sys2Proof.Machine

/-! ### Command bytes (30_encoding R59, R60) -/

/-- Settles O1: each byte decodes by definition. -/
theorem commandBytesDecode : Obligations.CommandBytesDecode := ⟨rfl, rfl, rfl, rfl, rfl, rfl, rfl, rfl, rfl⟩

theorem decodeCmd_encodeCmd (i : Instr) : decodeCmd (encodeCmd i) = .ok i := by cases i <;> rfl

/-- Settles O2: a command is its one byte, and the bytes after it are not read. -/
theorem decodeInvertsEncode : Obligations.DecodeInvertsEncode := by
  intro i rest
  rw [encode, List.singleton_append, decode, decodeCmd_encodeCmd]

/-- Settles O3: the encoder's byte is the only one that decodes to an operation. -/
theorem onlyItsByteDecodes : Obligations.OnlyItsByteDecodes :=
  fun c i => ⟨eq_encodeCmd_of_decodeCmd_ok i c, fun h => h ▸ decodeCmd_encodeCmd i⟩

/-! ### Writes of CMD (10_state R19) -/

section
variable {c : Byte} {i : Instr} {s : State}

theorem runCommand_of_decodeCmd_ok (hb : busyOf s.status = false) (hd : decodeCmd c = .ok i) :
    runCommand c s = exec i s := by
  simp [runCommand, hb, hd]

theorem postCommand_of_decodeCmd_ok (hb : busyOf s.status = false) (hd : decodeCmd c = .ok i) :
    postCommand c s = issueOnly i s := by
  simp [postCommand, hb, hd]

theorem step_of_post {rest : List HostAccess} (hhost : s.host = .post c :: rest) (hb : busyOf s.status = false)
    (hd : decodeCmd c = .ok i) : step s = issueOnly i { s with host := rest } :=
  (step_of_host_cons hhost).trans (postCommand_of_decodeCmd_ok hb hd)

end

/-- Settles O5: the write at the head of the queue is served, and the byte decodes. -/
theorem stepRunsDecodedOperation : Obligations.StepRunsDecodedOperation := fun _ _ _ _ hhost hb hd =>
  (step_of_host_cons hhost).trans (runCommand_of_decodeCmd_ok hb hd)

/-- Settles O6: with an empty queue the step is the sequencer's, which waits in IDLE. -/
theorem silentHostLeavesSequencer : Obligations.SilentHostLeavesSequencer := by
  intro s hhost
  have hstep : step s = seqStep s := by rw [step, hhost]
  exact ⟨hstep, fun hp => hstep.trans (seqStep_of_idle hp)⟩

theorem issuedStatus_bits : ∀ w : Byte, issuedStatus w = (w &&& 0xF0#8) ||| 0x01#8 := by decide

theorem issue_eq (p : Phase) (s : State) :
    issue p s = { s with status := (s.status &&& 0xF0#8) ||| 0x01#8, ph := p } := by
  rw [issue, issuedStatus_bits]

theorem issueTransfer_eq (p : Phase) (s : State) :
    issueTransfer p s = { s with status := (s.status &&& 0xF0#8) ||| 0x01#8, ph := p, rxn := 0#16, rxf := [] } := by
  rw [issueTransfer, issue_eq, putRxn, Memory.below_zero]

/-- Settles O7: the posted byte decodes, the operation's checks pass, and its issue is written out. -/
theorem postedCommandIssues : Obligations.PostedCommandIssues := by
  intro s rest hs
  refine ⟨fun f hhost hm hf => ?_, fun f n hhost hm hf hn h1 h2 => ?_, fun hhost hv hl => ?_,
    fun r hhost hv hr hfit => ?_⟩
  · have hissue := issueOnly_spix (s := { s with host := rest }) hs.1 hs.2 hm hf
    rw [step_of_post hhost hs.1 rfl, hissue, issueTransfer_eq]
  · have hissue := issueOnly_tplx (s := { s with host := rest }) hs.1 hs.2 hm hf hn h1 h2
    rw [step_of_post hhost hs.1 rfl, hissue, issueTransfer_eq]
  · have hissue := issueOnly_tbld (s := { s with host := rest }) hs.1 hs.2 hv hl
    rw [step_of_post hhost hs.1 rfl, hissue, issue_eq]
  · have hissue := issueOnly_tinv (s := { s with host := rest }) hs.1 hs.2 hv hr hfit
    rw [step_of_post hhost hs.1 rfl, hissue, issue_eq]

/-! ### Reset and writes (10_state R30, R31; 70_reset_and_hazards R138) -/

/-- Settles O10: the reset at the head of the host's queue is served, and BUSY = 0 lets it through. -/
theorem resetInputTakesEffect : Obligations.ResetInputTakesEffect := by
  intro s rest hhost hb
  rw [step_of_host_cons hhost]
  exact if_neg (by simp [hb])

section
variable {s : State} {n : Nat} {v : RegVal} {rest : List HostAccess}

theorem serve_write (hn : n ≠ 0) : serve (.write n v) s = hostWrite n v s := by
  unfold serve
  split
  case h_1 h => exact absurd (HostAccess.write.inj h).1 hn
  case h_2 h => rw [(HostAccess.write.inj h).1, (HostAccess.write.inj h).2]
  all_goals contradiction

theorem step_of_write (hn : n ≠ 0) (hhost : s.host = .write n v :: rest) :
    step s = hostWrite n v { s with host := rest } :=
  (step_of_host_cons hhost).trans (serve_write hn)

end

/-- Settles O11: the write is served, and BUSY = 0 lets it through to its register. -/
theorem operandWritesTakeEffect : Obligations.OperandWritesTakeEffect := by
  intro s rest hb
  refine ⟨fun f hhost => ?_, fun n hhost => ?_, fun w hhost => ?_, fun r hhost => ?_⟩ <;>
    rw [step_of_write (by decide) hhost] <;> exact if_neg (by simp [hb])

theorem runCommand_of_busy {c : Byte} {s : State} (hb : busyOf s.status = true) :
    runCommand c s = .refused .operationInProgress := if_pos hb

theorem hostWrite_of_busy {n : Nat} {v : RegVal} {s : State} (hb : busyOf s.status = true) :
    hostWrite n v s = .refused .operationInProgress := if_pos hb

theorem serve_write_of_busy {n : Nat} {v : RegVal} {s : State} (hb : busyOf s.status = true) :
    serve (.write n v) s = .refused .operationInProgress := by
  unfold serve
  split
  case h_1 => exact runCommand_of_busy hb
  case h_2 => exact hostWrite_of_busy hb
  all_goals contradiction

/-- Settles O12: STATUS is delivered before BUSY is tested, and every other access tests it first. -/
theorem accessWhileBusy : Obligations.AccessWhileBusy := by
  intro s rest
  refine ⟨fun hhost => by rw [step_of_host_cons hhost]; rfl, fun hb =>
    ⟨fun n v hhost => ?_, fun c hhost => ?_, fun n hn hhost => ?_⟩⟩ <;> rw [step_of_host_cons hhost]
  · exact serve_write_of_busy hb
  · exact if_pos hb
  · rw [serve, hostRead, if_neg hn, if_pos hb]

/-! ### Reads (10_state R30, R33) -/

/-- The register numbers other than STATUS that can be read, and what the register holds (R30). -/
inductive Register (s : State) : Nat → Option RegVal → Prop
  | txf : Register s 2 (s.txf.map .frame)
  | nfr : Register s 3 (s.nfr.map .word)
  | win : Register s 4 (s.win.map .block)
  | raw : Register s 5 (s.raw.map .word)
  | wout : Register s 6 (s.wout.map .block)
  | fout : Register s 7 (s.fout.map .frame)
  | rxn : Register s 8 (some (.word s.rxn))
  | temp : Register s 9 (s.temp.map .word)
  | rxf (k : Nat) (hk : k < s.cfg.maxFrames) : Register s (16 + k) ((Memory.read s.rxf k).map .frame)

section
variable {s : State} {n : Nat} {v : Option RegVal} {rest : List HostAccess}

theorem readRegister_rxf {k : Nat} (hk : k < s.cfg.maxFrames) :
    readRegister (16 + k) s = deliverHeld (16 + k) ((Memory.read s.rxf k).map .frame) s := by
  simp (disch := omega) only [readRegister, if_neg, if_pos, Nat.add_sub_cancel_left]

theorem readRegister_of_register (h : Register s n v) : readRegister n s = deliverHeld n v s := by
  cases h with
  | rxf k hk => exact readRegister_rxf hk
  | txf | nfr | win | raw | wout | fout | rxn | temp => rfl

theorem Register.ne_one (h : Register s n v) : n ≠ 1 := by
  cases h <;> omega

/-- The queue moving on changes no register. -/
theorem Register.host (h : Register s n v) (q : List HostAccess) : Register { s with host := q } n v := by
  cases h <;> constructor
  assumption

theorem step_of_read (hn : n ≠ 1) (hhost : s.host = .read n :: rest) (hb : busyOf s.status = false) :
    step s = readRegister n { s with host := rest } := by
  rw [step_of_host_cons hhost, serve, hostRead, if_neg hn, if_neg (by simp [hb])]

theorem step_of_register (h : Register s n v) (hhost : s.host = .read n :: rest) (hb : busyOf s.status = false) :
    step s = deliverHeld n v { s with host := rest } :=
  (step_of_read h.ne_one hhost hb).trans (readRegister_of_register (h.host rest))

end

/-- Settles O13: each clause names a register and the value that it holds. -/
theorem readsDeliverRegisters : Obligations.ReadsDeliverRegisters := by
  intro s n v rest hhost hb h
  suffices hreg : Register s n (some v) from step_of_register hreg hhost hb
  rcases h with ⟨rfl, h⟩ | ⟨rfl, h⟩ | ⟨rfl, h⟩ | ⟨rfl, h⟩ | ⟨rfl, h⟩ | ⟨rfl, h⟩ | ⟨rfl, rfl⟩ | ⟨rfl, h⟩ |
    ⟨k, rfl, hk, h⟩
  · exact h ▸ .txf
  · exact h ▸ .nfr
  · exact h ▸ .win
  · exact h ▸ .raw
  · exact h ▸ .wout
  · exact h ▸ .fout
  · exact .rxn
  · exact h ▸ .temp
  · exact h ▸ .rxf k hk

/-- Settles O14: each clause names a register and says that it holds no value. -/
theorem readsOfNoValueRefused : Obligations.ReadsOfNoValueRefused := by
  intro s n rest hhost hb h
  suffices hreg : Register s n none from step_of_register hreg hhost hb
  rcases h with ⟨rfl, h⟩ | ⟨rfl, h⟩ | ⟨rfl, h⟩ | ⟨rfl, h⟩ | ⟨rfl, h⟩ | ⟨rfl, h⟩ | ⟨rfl, h⟩ | ⟨k, rfl, hk, h⟩
  · simpa [h] using Register.txf (s := s)
  · simpa [h] using Register.nfr (s := s)
  · simpa [h] using Register.win (s := s)
  · simpa [h] using Register.raw (s := s)
  · simpa [h] using Register.wout (s := s)
  · simpa [h] using Register.fout (s := s)
  · simpa [h] using Register.temp (s := s)
  · simpa [h] using Register.rxf k hk

/-! ### Accesses that do not exist (60_exceptions RF8) -/

section
variable {s : State} {n : Nat}

theorem hostWrite_badAccess {v : RegVal} (hb : busyOf s.status = false) (hn : n = 1 ∨ 6 ≤ n) :
    hostWrite n v s = .refused (.badAccess n) := by
  unfold hostWrite
  rw [if_neg (by simp [hb])]
  split
  case h_5 => rfl
  all_goals omega

theorem readRegister_badAccess (hn : n = 0 ∨ (10 ≤ n ∧ n ≤ 15) ∨ 15 + s.cfg.maxFrames < n) :
    readRegister n s = .refused (.badAccess n) := by
  simp (disch := omega) only [readRegister, if_neg]

end

/-- Settles O15: no clause of a host access matches such a number. -/
theorem noSuchAccessRefused : Obligations.NoSuchAccessRefused := by
  intro s n rest hb
  refine ⟨fun v hhost hn => ?_, fun hhost hn => ?_⟩
  · rw [step_of_write (by omega) hhost]
    exact hostWrite_badAccess hb hn
  · rw [step_of_read (by omega) hhost hb]
    exact readRegister_badAccess hn

/-- Settles O16: every answered read is a delivery. -/
theorem readsHaveNoSideEffect : Obligations.ReadsHaveNoSideEffect := by
  intro s t n rest hhost h
  rw [step_of_host_cons hhost, serve] at h
  obtain ⟨v, rfl⟩ := hostRead_next h
  exact ⟨v, rfl⟩

/-! ### The codec (41_frame_codec R74, 30_encoding R56) -/

theorem encodeFrame_decodeBlock (w : Block) :
    encodeFrame (decodeBlock w) = { w with w5 := 0#8, w6 := 0#8, w7 := 0#8 } := rfl

/-- Settles O20: the bytes of an encoding are read off, and after decoding only the padding is lost. -/
theorem encodingShape : Obligations.EncodingShape := by
  refine ⟨fun f => ⟨rfl, rfl, rfl⟩, encodeFrame_decodeBlock, fun w => ?_⟩
  rw [encodeFrame_decodeBlock]
  cases w
  simp only [Block.mk.injEq, true_and, eq_comm (a := 0#8)]

/-- Settles O21: the five bytes that are compared are the ones that decoding reads. -/
theorem paddingIgnored : Obligations.PaddingIgnored := by
  intro v w h
  simp only [blockBytes, List.take_succ_cons, List.cons.injEq] at h
  obtain ⟨h0, h1, h2, h3, h4, -⟩ := h
  simp only [decodeBlock, h0, h1, h2, h3, h4]

/-! ### SPIX (42_spi_engine R77) -/

/-- The end of an exchange answered by a block: the block decoded, back in IDLE (R77, 60_exceptions R121). -/
theorem spiAnswered_ok_exchanged {s : State} (hp : s.ph = .idle) (f : Frame) (r : Block) :
    spiAnswered (.ok r) (exchanged f s) = { s with
      txw := Memory.writeBlock s.txw 0 (encodeFrame f), rxw := Memory.writeBlock s.rxw 0 r,
      rxf := [(0, decodeBlock r)], rxn := 1#16, status := (s.status &&& 0xF0#8) ||| 0x02#8,
      trace := s.trace ++ [.mXfer (encodeFrame f) .full (xferSeen .full s.env.nextXfer)],
      env := s.env.afterXfer } := by
  have hdone : completedStatus .ok (issuedStatus s.status) = (s.status &&& 0xF0#8) ||| 0x02#8 := by
    simp [completed_issued, codeBits]
  have hrxf := spiAnswered_ok_rxf (exchanged_rxf f s) r
  simp only [spiAnswered, complete, putRxn] at hrxf ⊢
  rw [← hdone, hrxf, hp]
  rfl

/-- Settles O22: SPIX runs its one exchange and ends by the answer. -/
theorem spixSuccess : Obligations.SpixSuccess := by
  intro s f r hs hm hf hx
  rw [exec_spix_of_ready hs hm hf, hx, spiAnswered_ok_exchanged hs.2, hx]
  rfl

/-! ### Refusals (60_exceptions R127) -/

section
variable {s : State} {k : Answer}

theorem whenInMode_refused {i : Instr} (h : i.wellFormed s.cfg.mode = false) :
    whenInMode i s k = .refused .wrongMode := if_neg (by simp [h])

theorem wellFormed_spix : Instr.spix.wellFormed s.cfg.mode = true ↔ s.cfg.mode = .spi := by
  cases hm : s.cfg.mode <;> simp [Instr.wellFormed]

theorem wellFormed_tplx : Instr.tplx.wellFormed s.cfg.mode = true ↔ s.cfg.mode ≠ .spi := by
  cases hm : s.cfg.mode <;> simp [Instr.wellFormed]

theorem whenFrameCount_refused {n : Nat} (h : n = 0 ∨ s.cfg.maxFrames < n) :
    whenFrameCount n s k = .refused (.badFrameCount n) := if_neg (by omega)

end

/-- Settles O25: the first check that fails names the refusal. -/
theorem transferRefusals : Obligations.TransferRefusals := by
  intro s hs
  refine ⟨fun hm => ?_, fun hm hf => ?_, fun hm => ?_, fun hm hf => ?_, fun f hm hf hn => ?_,
    fun f n hm hf hn hcount => ?_⟩
  · have hmode := Bool.eq_false_of_not_eq_true (mt wellFormed_spix.1 hm)
    rw [exec, execSpix, startSpix, whenIdle_of_ready hs, whenInMode_refused hmode]
  · rw [exec, execSpix, startSpix, whenIdle_of_ready hs, whenInMode_eq (wellFormed_spix.2 hm), hf, withOperand_none]
  · have hmode := Bool.eq_false_of_not_eq_true (mt wellFormed_tplx.1 (not_not_intro hm))
    rw [exec, execTplx, startTplx, whenIdle_of_ready hs, whenInMode_refused hmode]
  · rw [exec, execTplx, startTplx, whenIdle_of_ready hs, whenInMode_eq (wellFormed_tplx.2 hm), hf, withOperand_none]
  · rw [exec, execTplx, startTplx, whenIdle_of_ready hs, whenInMode_eq (wellFormed_tplx.2 hm), hf, withOperand_some,
      hn, withOperand_none]
  · rw [exec, execTplx, startTplx, whenIdle_of_ready hs, whenInMode_eq (wellFormed_tplx.2 hm), hf, withOperand_some,
      hn, withOperand_some, whenFrameCount_refused hcount]

/-- Settles O39: the first check that fails names the refusal. -/
theorem tableRefusals : Obligations.TableRefusals := by
  intro s hs
  refine ⟨fun hv => ?_, fun hv hl => ?_, fun hv => ?_, fun hv hr => ?_, fun r hv hr hfit => ?_⟩
  · rw [exec, execTbld, startTbld, whenIdle_of_ready hs]
    exact if_neg (by simp [hv])
  · rw [exec, execTbld, startTbld, whenIdle_of_ready hs, whenTableUnbuilt_eq hv]
    exact if_neg (by simp [hl])
  · rw [exec, execTinv, startTinv, whenIdle_of_ready hs]
    exact if_neg (by simp [hv])
  · rw [exec, execTinv, startTinv, whenIdle_of_ready hs, whenTableBuilt_eq hv, hr, withOperand_none]
  · rw [exec, execTinv, startTinv, whenIdle_of_ready hs, whenTableBuilt_eq hv, hr, withOperand_some]
    exact if_neg (by simp [hfit])

end Sys2Proof.Machine
end
